-- ==== Sys2Proof/Word.lean ====
section
/-! DEFINITION. The word type and the plain vocabulary of the spec: words, addressing modes, fault codes. -/

namespace Sys2Proof

/-- One memory cell, register or literal: a signed 64-bit word (R4). `BitVec.toInt` is its value in INT64;
the two's-complement reading is the spec's own general knowledge (93, G1). -/
abbrev Word := BitVec 64

/-- `in64(v)`: the exact integer `v` is a value of INT64 (R10). -/
abbrev in64 (v : Int) : Prop := -9223372036854775808 ≤ v ∧ v ≤ 9223372036854775807

/-- The addressing modes (R1, R65). -/
inductive Mode where
  | position
  | immediate
  | relative
deriving DecidableEq, Repr

/-- The fault codes of R161. -/
inductive FaultKind where
  | decodeOpcode
  | decodeMode
  | decodeImmDest
  | decodeHighDigit
  | address
  | overflow
deriving DecidableEq, Repr

/-- A raised fault with its info, an integer (R12, R25, R161): `raise <Fault>(info)`. -/
structure Raised where
  kind : FaultKind
  info : Int
deriving DecidableEq, Repr

end Sys2Proof
end

