-- ==== Sys2Proof/Syntax.lean ====
section
/-! DEFINITION. The decoded-instruction type of R77: one constructor per row of the opcode table, each carrying one
addressing mode per operand. Literals are no part of it: the step fetches them (R93). -/

namespace Sys2Proof

/-- A decoded instruction (R77). `m3` of ADD, MUL, LT, EQ and `m1` of IN are write destinations (R68). -/
inductive Instr where
  | add (m1 m2 m3 : Mode)
  | mul (m1 m2 m3 : Mode)
  | inp (m1 : Mode)
  | out (m1 : Mode)
  | jt (m1 m2 : Mode)
  | jf (m1 m2 : Mode)
  | lt (m1 m2 m3 : Mode)
  | eq (m1 m2 m3 : Mode)
  | arb (m1 : Mode)
  | hlt
deriving DecidableEq, Repr

end Sys2Proof
end

