-- ==== Sys2Proof/WellFormed.lean ====
section
/-! DEFINITION. Which terms of `Instr` are values of the decoded-instruction type: a write destination is never
Immediate (R68, R77). -/

namespace Sys2Proof

/-- A mode a write destination may carry: Position or Relative (R82). -/
def Mode.isDest : Mode → Bool
  | .position => true
  | .immediate => false
  | .relative => true

/-- R77: `m3 != Immediate` for Add, Multiply, LessThan, Equals and `m1 != Immediate` for Input. -/
def Instr.wf : Instr → Bool
  | .add _ _ m3 => m3.isDest
  | .mul _ _ m3 => m3.isDest
  | .inp m1 => m1.isDest
  | .out _ => true
  | .jt _ _ => true
  | .jf _ _ => true
  | .lt _ _ m3 => m3.isDest
  | .eq _ _ m3 => m3.isDest
  | .arb _ => true
  | .hlt => true

end Sys2Proof
end

