-- ==== Sys2Proof/Decode.lean ====
section
/-! DEFINITION. The decoder of R71, total on every word, and after it the canonical encoder of R78. The instruction word
is read in decimal (R61). After R62 has refused negative words, truncated and floor division agree (R11), so the digits
are taken with division and remainder of natural numbers. -/

namespace Sys2Proof

/-- The mode a digit stands for (R65); any digit but 0, 1, 2 raises DECODE_MODE carrying the digit. -/
def modeOfDigit : Nat → Except Raised Mode
  | 0 => .ok .position
  | 1 => .ok .immediate
  | 2 => .ok .relative
  | d => .error ⟨.decodeMode, d⟩

/-- The mode digit `d_i` of a non-negative word (R64): i = 1, 2, 3. -/
def modeDigit (n i : Nat) : Nat := n / 100 / 10 ^ (i - 1) % 10

/-- The unused high part `h` above the mode digits of `k` operands (R61, R70). -/
def highPart (n k : Nat) : Nat := n / 10 ^ (2 + k)

/-- R68: an Immediate write destination raises DECODE_IMM_DEST carrying the instruction word. -/
def checkDestMode (m : Mode) (w : Int) : Except Raised Unit :=
  if m.isDest then .ok () else .error ⟨.decodeImmDest, w⟩

/-- R70: with STRICT_HIGH_DIGITS a non-zero high part raises DECODE_HIGH_DIGIT. -/
def checkHigh (strict : Bool) (h : Nat) : Except Raised Unit :=
  if strict && h != 0 then .error ⟨.decodeHighDigit, h⟩ else .ok ()

/-- Format F0: no operand. -/
def decode0 (strict : Bool) (n : Nat) (i : Instr) : Except Raised Instr := do
  checkHigh strict (highPart n 0)
  pure i

/-- Format F1R: one read operand. -/
def decode1R (strict : Bool) (n : Nat) (mk : Mode → Instr) : Except Raised Instr := do
  let m1 ← modeOfDigit (modeDigit n 1)
  checkHigh strict (highPart n 1)
  pure (mk m1)

/-- Format F1W: one write destination. -/
def decode1W (strict : Bool) (n : Nat) (mk : Mode → Instr) : Except Raised Instr := do
  let m1 ← modeOfDigit (modeDigit n 1)
  checkDestMode m1 n
  checkHigh strict (highPart n 1)
  pure (mk m1)

/-- Format F2RR: two read operands. -/
def decode2RR (strict : Bool) (n : Nat) (mk : Mode → Mode → Instr) : Except Raised Instr := do
  let m1 ← modeOfDigit (modeDigit n 1)
  let m2 ← modeOfDigit (modeDigit n 2)
  checkHigh strict (highPart n 2)
  pure (mk m1 m2)

/-- Format F3RRW: two read operands and a write destination. -/
def decode3RRW (strict : Bool) (n : Nat) (mk : Mode → Mode → Mode → Instr) : Except Raised Instr := do
  let m1 ← modeOfDigit (modeDigit n 1)
  let m2 ← modeOfDigit (modeDigit n 2)
  let m3 ← modeOfDigit (modeDigit n 3)
  checkDestMode m3 n
  checkHigh strict (highPart n 3)
  pure (mk m1 m2 m3)

/-- The decoder on a non-negative word: the opcode map of R75 and the check order of R69. -/
def decodeNat (strict : Bool) (n : Nat) : Except Raised Instr :=
  match n % 100 with
  | 1 => decode3RRW strict n .add
  | 2 => decode3RRW strict n .mul
  | 3 => decode1W strict n .inp
  | 4 => decode1R strict n .out
  | 5 => decode2RR strict n .jt
  | 6 => decode2RR strict n .jf
  | 7 => decode3RRW strict n .lt
  | 8 => decode3RRW strict n .eq
  | 9 => decode1R strict n .arb
  | 99 => decode0 strict n .hlt
  | op => .error ⟨.decodeOpcode, op⟩

/-- `decode(w)` (R71): a total function from words to instruction or fault; a negative word does not decode (R62). -/
def decode (strict : Bool) (w : Word) : Except Raised Instr :=
  if w.toInt < 0 then .error ⟨.decodeOpcode, w.toInt.tmod 100⟩ else decodeNat strict w.toNat

/-- The instruction an opcode-table word stands for: its first 64-bit word is the instruction word, later words are
literals, which no decoder reads (R84, R85). STRICT_HIGH_DIGITS at its default (R9; log 22). -/
def decodeTableWord (nbits w : Nat) : Option Instr :=
  match decode false (BitVec.ofNat 64 (w % 2 ^ nbits)) with
  | .ok i => some i
  | .error _ => none

/-- The opcode of a decoded instruction (R75). -/
def Instr.opcode : Instr → Nat
  | .add _ _ _ => 1
  | .mul _ _ _ => 2
  | .inp _ => 3
  | .out _ => 4
  | .jt _ _ => 5
  | .jf _ _ => 6
  | .lt _ _ _ => 7
  | .eq _ _ _ => 8
  | .arb _ => 9
  | .hlt => 99

/-- The operand count of a decoded instruction (R67). -/
def Instr.operandCount : Instr → Nat
  | .add _ _ _ => 3
  | .mul _ _ _ => 3
  | .inp _ => 1
  | .out _ => 1
  | .jt _ _ => 2
  | .jf _ _ => 2
  | .lt _ _ _ => 3
  | .eq _ _ _ => 3
  | .arb _ => 1
  | .hlt => 0

/-- The width in words: `1 + n` (R76). -/
def Instr.width (i : Instr) : Nat := 1 + i.operandCount

/-- The digit of a mode (R78). -/
def Mode.code : Mode → Nat
  | .position => 0
  | .immediate => 1
  | .relative => 2

/-- The mode digits of an instruction in their decimal places (R61, R78). -/
def Instr.modeDigits : Instr → Nat
  | .add m1 m2 m3 => 100 * m1.code + 1000 * m2.code + 10000 * m3.code
  | .mul m1 m2 m3 => 100 * m1.code + 1000 * m2.code + 10000 * m3.code
  | .inp m1 => 100 * m1.code
  | .out m1 => 100 * m1.code
  | .jt m1 m2 => 100 * m1.code + 1000 * m2.code
  | .jf m1 m2 => 100 * m1.code + 1000 * m2.code
  | .lt m1 m2 m3 => 100 * m1.code + 1000 * m2.code + 10000 * m3.code
  | .eq m1 m2 m3 => 100 * m1.code + 1000 * m2.code + 10000 * m3.code
  | .arb m1 => 100 * m1.code
  | .hlt => 0

/-- The canonical instruction word as a number (R78). -/
def encodeNat (i : Instr) : Nat := i.opcode + i.modeDigits

/-- `encode(i)` (R78): the canonical instruction word, high part 0. -/
def encode (i : Instr) : Word := BitVec.ofNat 64 (encodeNat i)

/-- The code of a fault kind (R161, D28). -/
def FaultKind.code : FaultKind → Nat
  | .decodeOpcode => 1
  | .decodeMode => 2
  | .decodeImmDest => 3
  | .decodeHighDigit => 4
  | .address => 5
  | .overflow => 6

end Sys2Proof
end

