-- ==== Sys2Proof/Config.lean ====
section
/-! DEFINITION. The parameters of the model (R5, R6, R8, R9): fixed for one machine, changed by no step and no host action.
They are plain data held in `State.cfg`, so that a statement about every state holds for every value of them (log 1). -/

namespace Sys2Proof

/-- `OVERFLOW_POLICY` (R6): what ADD, MUL and ARB do when the exact result is outside INT64. -/
inductive OverflowPolicy where
  | fault
  | wrap
deriving DecidableEq, Repr

/-- The parameters. -/
structure Config where
  /-- `MEM_CAPACITY`, the symbol `C` of the spec (R5). -/
  capacity : Nat
  /-- `OVERFLOW_POLICY` (R6). -/
  overflow : OverflowPolicy
  /-- `RB_INIT` (R8). -/
  rbInit : Word
  /-- `STRICT_HIGH_DIGITS` (R9). -/
  strictHighDigits : Bool
deriving DecidableEq, Repr

/-- The constraint the spec puts on the parameters: `1 <= C <= 2^63 - 1` (R5). -/
def Config.wf (c : Config) : Bool :=
  decide (1 ≤ c.capacity) && decide (c.capacity ≤ 9223372036854775807)

/-- The spec's default for each parameter (R6, R8, R9). The capacity is open in the spec (R5, D1); the largest one,
which "stands for the unbounded sparse map", is this model's choice. DESIGN CHOICE (log 2), unsafe. -/
def Config.default : Config where
  capacity := 9223372036854775807
  overflow := .fault
  rbInit := 0
  strictHighDigits := false

end Sys2Proof
end

