-- ==== Sys2Proof/Machine/State.lean ====
section
/-! DEFINITION. The state of the block (R20), the reasons a step can stop, and the state right after START. -/

namespace Sys2Proof.Machine

open Sys2Proof

/-- STATUS (R24). -/
inductive Status where
  | running
  | suspended
  | halted
  | faulted
deriving DecidableEq, Repr

/-- INPUT_MODE and INQ together: INQ exists in queue mode only and is absent in blocking mode (R29; log 5). -/
inductive Input where
  | queue (words : List Word)
  | blocking
deriving DecidableEq, Repr

/-- MEM as a sparse map (R49 allows it): cells of word index and word, indexes strictly rising, no cell holding what an
unlisted address reads as (`Memory.wf` in Ops.lean; log 11). -/
abbrev Memory := List (Nat × Word)

/-- The architectural state of R20, and the parameters of R5, R6, R8, R9 (log 1). -/
structure State where
  /-- The parameters; no step and no host action writes them. -/
  cfg : Config
  /-- MEM (R27). -/
  mem : Memory
  /-- PC (R21). -/
  pc : Word
  /-- RB (R23). -/
  rb : Word
  /-- INPUT_MODE and INQ (R28, R29). -/
  input : Input
  /-- LAST_OUT, with LAST_OUT_VALID = 0 shown as `none` (R30, D12; log 4). -/
  lastOut : Option Word
  /-- OUTLOG, oldest first (R31). -/
  outlog : List Word
  /-- STATUS (R24). -/
  status : Status
  /-- FAULT_KIND, `none` for NONE (R25). -/
  faultKind : Option FaultKind
  /-- FAULT_INFO, `none` for NONE (R25). -/
  faultInfo : Option Int
  /-- CUR_INSN, `none` for NONE (R26). -/
  curInsn : Option Instr
deriving DecidableEq, Repr

/-- Why no step exists. The spec's own faults are not here: they are next states with STATUS FAULTED (R160; log 9). -/
inductive Fault where
  /-- Raised by `step` when STATUS is SUSPENDED: the block takes no step (R90). Safe. -/
  | blockSuspended
  /-- Raised by `step` when STATUS is HALTED: the block takes no step (R90). Safe. -/
  | blockHalted
  /-- Raised by `step` when STATUS is FAULTED: the block takes no step (R90, R165). Safe. -/
  | blockFaulted
deriving DecidableEq, Repr

/-- What the model refuses. -/
inductive Refusal where
  /-- An instruction without a meaning; no arm of `exec` uses it. Safe. -/
  | notModelled (mnemonic : String)
  /-- Raised by START for an image longer than the capacity (R180, D21). Safe. -/
  | imageTooLong
  /-- Raised by START while STATUS is RUNNING (R35). Safe. -/
  | startWhileRunning
  /-- Raised by RESUME unless STATUS is SUSPENDED or HALTED and the mode is queue (R35, R36). Safe. -/
  | resumeNotAllowed
  /-- Raised by SUPPLY unless an IN waits in blocking mode (R35). Safe. -/
  | supplyNotAllowed
  /-- Raised by READ while STATUS is RUNNING (R35). Safe. -/
  | readWhileRunning
deriving DecidableEq, Repr

/-- LAST_OUT_VALID (R30). -/
def State.lastOutValid (s : State) : Bool := s.lastOut.isSome

/-- The state right after START of an empty image in queue mode with an empty queue, start offset 0 and the spec's
default parameters (R38, R181). That START is the model's choice: DESIGN CHOICE (log 6). -/
def State.reset : State where
  cfg := Config.default
  mem := []
  pc := 0
  rb := 0
  input := .queue []
  lastOut := none
  outlog := []
  status := .running
  faultKind := none
  faultInfo := none
  curInsn := none

end Sys2Proof.Machine
end

