-- ==== Sys2Proof/Machine/Ops.lean ====
section
/-! DEFINITION. The named operations over memory and registers, instruction fetch, and taking a fault. -/

namespace Sys2Proof.Machine

open Sys2Proof

/-- What a step of the block answers. -/
abbrev StepOutcome := Host.Outcome State Fault Refusal

/-- What a valid address that is not listed reads as: 0 (R49). -/
def Memory.unlisted : Word := 0

/-- The word at index `a`. -/
def Memory.read : Memory → Nat → Word
  | [], _ => Memory.unlisted
  | (k, w) :: rest, a => if k = a then w else Memory.read rest a

/-- Writing the word `v` at index `a`, keeping the canonical form: writing what an unlisted address reads as removes
the cell. -/
def Memory.write : Memory → Nat → Word → Memory
  | [], a, v => if v = Memory.unlisted then [] else [(a, v)]
  | (k, w) :: rest, a, v =>
    if a < k then (if v = Memory.unlisted then (k, w) :: rest else (a, v) :: (k, w) :: rest)
    else if a = k then (if v = Memory.unlisted then rest else (a, v) :: rest)
    else (k, w) :: Memory.write rest a v

/-- The canonical form, for cells whose indexes are at least `lo`. -/
def Memory.wfFrom (lo : Nat) : Memory → Bool
  | [] => true
  | (k, w) :: rest => decide (lo ≤ k) && decide (w ≠ Memory.unlisted) && Memory.wfFrom (k + 1) rest

/-- The canonical form: indexes strictly rising, no cell equal to what an unlisted address reads as. -/
def Memory.wf (m : Memory) : Bool := Memory.wfFrom 0 m

/-- Every listed cell lies below `c`. -/
def Memory.below (c : Nat) (m : Memory) : Bool := m.all fun cell => decide (cell.1 < c)

/-- Loading an image from index `a` upward into an empty memory (R180). -/
def Memory.loadFrom (a : Nat) : List Word → Memory
  | [] => []
  | w :: rest => if w = Memory.unlisted then Memory.loadFrom (a + 1) rest else (a, w) :: Memory.loadFrom (a + 1) rest

/-- An address is valid iff `0 <= a < C` (R46). -/
abbrev State.valid (s : State) (a : Int) : Prop := 0 ≤ a ∧ a < (s.cfg.capacity : Int)

/-- `MemRead(a)` (R47). -/
def memRead (a : Int) (s : State) : Except Raised Word :=
  if s.valid a then .ok (Memory.read s.mem a.toNat) else .error ⟨.address, a⟩

/-- `MemWrite(a, v)` (R48). -/
def memWrite (a : Int) (v : Word) (s : State) : Except Raised State :=
  if s.valid a then .ok { s with mem := Memory.write s.mem a.toNat v } else .error ⟨.address, a⟩

/-- `PC <- t` (R12): nothing is checked when PC is written (R21). -/
def State.setPc (t : Word) (s : State) : State := { s with pc := t }

/-- `PC <- PC + n` (R97). The sum stays in INT64 for every fetched instruction, because `C <= 2^63 - 1` (R21; log 23). -/
def State.advance (n : Nat) (s : State) : State := s.setPc (BitVec.ofInt 64 (s.pc.toInt + n))

/-- `RB <- v` (R12). -/
def State.setRb (v : Word) (s : State) : State := { s with rb := v }

/-- OUT's register writes: LAST_OUT, LAST_OUT_VALID and OUTLOG (R142). -/
def State.emit (x : Word) (s : State) : State := { s with lastOut := some x, outlog := s.outlog ++ [x] }

/-- `INQ <- q` in queue mode (R28). -/
def State.setQueue (q : List Word) (s : State) : State := { s with input := .queue q }

/-- Ending a step in SUSPENDED, with the decoded IN latched in CUR_INSN (R26, R99). -/
def State.suspend (i : Instr) (s : State) : State := { s with status := .suspended, curInsn := some i }

/-- Ending a step in HALTED, with the Halt marker latched in CUR_INSN (R26, R99, R133). -/
def State.halt (s : State) : State := { s with status := .halted, curInsn := some .hlt }

/-- Taking a fault (R160): STATUS, FAULT_KIND and FAULT_INFO are written and nothing else. There is no handler, no saved
register and no return from a fault (R165): FAULTED is left only by START, `hostStart`. -/
def State.raise (r : Raised) (s : State) : State :=
  { s with status := .faulted, faultKind := some r.kind, faultInfo := some r.info }

/-- The end of a step from `s`: the state its pseudocode left, or the fault it raised, taken in `s` itself, because a
step that raises has written nothing (R98, R160). -/
def finish (s : State) : Except Raised State → StepOutcome
  | .ok t => .next t
  | .error r => .next (s.raise r)

/-- `lit(i)`, the word at `PC + i` (R12, R93); the address sum is exact (R46). -/
def lit (i : Nat) (s : State) : Except Raised Word := memRead (s.pc.toInt + i) s

/-- Fetch and decode of the instruction word at PC (R91, R92). -/
def fetch (s : State) : Except Raised Instr := do
  let w ← memRead s.pc.toInt s
  decode s.cfg.strictHighDigits w

end Sys2Proof.Machine
end

