-- ==== Sys2Proof/Machine/Flags.lean ====
section
/-! DEFINITION. The machine has no flags (R34). What stands here is what other machines compute beside a result: the
overflow rule `wr64` shared by ADD, MUL and ARB (R111) and the word a comparison writes (R120, R122). -/

namespace Sys2Proof.Machine

open Sys2Proof

/-- The residue in INT64 that the `wrap` policy gives (R111). -/
def wrap64 (v : Int) : Int := v - 18446744073709551616 * ((v + 9223372036854775808).fdiv 18446744073709551616)

/-- `wr64(v)` for the instruction with opcode `op` (R111). -/
def wr64 (policy : OverflowPolicy) (op : Nat) (v : Int) : Except Raised Word :=
  if in64 v then .ok (BitVec.ofInt 64 v)
  else match policy with
    | .fault => .error ⟨.overflow, op⟩
    | .wrap => .ok (BitVec.ofInt 64 (wrap64 v))

/-- The word a comparison writes: 1 or 0 (R120, R122). -/
def truthWord (b : Bool) : Word := if b then 1 else 0

end Sys2Proof.Machine
end

