-- ==== Sys2Proof/Machine/Operands.lean ====
section
/-! DEFINITION. Operand resolution (R79 to R82) and the shapes the instruction families share (R60, R94). -/

namespace Sys2Proof.Machine

open Sys2Proof

/-- The address a literal names under a mode: the literal, plus RB under Relative, summed exactly (R79, R46).
An Immediate operand has no address: `readop` does not ask for one and a destination never carries that mode (R68). -/
def addrOf (m : Mode) (l : Word) (s : State) : Int :=
  match m with
  | .position => l.toInt
  | .immediate => l.toInt
  | .relative => l.toInt + s.rb.toInt

/-- `readop(i)` for an operand with mode `m` and literal `l` (R80). -/
def readop (m : Mode) (l : Word) (s : State) : Except Raised Word :=
  match m with
  | .position => memRead (addrOf .position l s) s
  | .immediate => .ok l
  | .relative => memRead (addrOf .relative l s) s

/-- `dest(i)` for a write destination with mode `m` and literal `l` (R81): the address, checked when it is resolved. -/
def dest (m : Mode) (l : Word) (s : State) : Except Raised Int :=
  if s.valid (addrOf m l s) then .ok (addrOf m l s) else .error ⟨.address, addrOf m l s⟩

/-- An instruction whose destination is Immediate never leaves the decoder (R68); the meaning of such a term takes the
decoder's fault, with the term's canonical word as info (log 16). -/
def checkDest (m : Mode) (i : Instr) : Except Raised Unit := checkDestMode m (encodeNat i)

/-- The shape of F3RRW (R91, R94): literals, read operands, destination, computation `f`, the one write, `PC + 4`. -/
def threeOperand (i : Instr) (m1 m2 m3 : Mode) (f : Int → Int → Except Raised Word) (s : State) : Except Raised State := do
  checkDest m3 i
  let l1 ← lit 1 s
  let l2 ← lit 2 s
  let l3 ← lit 3 s
  let x ← readop m1 l1 s
  let y ← readop m2 l2 s
  let d ← dest m3 l3 s
  let r ← f x.toInt y.toInt
  let t ← memWrite d r s
  pure (t.advance 4)

/-- The shape of F2RR (R91, R94): literals, both read operands, then PC to the target if the condition `c` holds, else
`PC + 3`. The target is not checked (R130). -/
def jumpIf (m1 m2 : Mode) (c : Int → Bool) (s : State) : Except Raised State := do
  let l1 ← lit 1 s
  let l2 ← lit 2 s
  let x ← readop m1 l1 s
  let t ← readop m2 l2 s
  pure (if c x.toInt then s.setPc t else s.advance 3)

/-- The shape of F1R (R91, R94): one literal, one read operand, register writes `f`, `PC + 2`. -/
def oneRead (m1 : Mode) (f : Word → State → Except Raised State) (s : State) : Except Raised State := do
  let l1 ← lit 1 s
  let x ← readop m1 l1 s
  let t ← f x s
  pure (t.advance 2)

/-- The destination of an IN, resolved before the queue is looked at (R140, D10). -/
def inputDest (m1 : Mode) (s : State) : Except Raised Int := do
  checkDest m1 (.inp m1)
  let l1 ← lit 1 s
  dest m1 l1 s

/-- The end of an IN that has its input word `v` (R140): the one write, then `PC + 2`. -/
def completeInput (d : Int) (v : Word) (s : State) : Except Raised State := do
  let t ← memWrite d v s
  pure (t.advance 2)

end Sys2Proof.Machine
end

