-- ==== Sys2Proof/Machine/Arithmetic.lean ====
section
/-! DEFINITION. The arithmetic family: ADD and MUL. -/

namespace Sys2Proof.Machine

open Sys2Proof

/-- ADD (R110): the exact sum through `wr64` to the destination. -/
def execAdd (m1 m2 m3 : Mode) (s : State) : StepOutcome :=
  finish s (threeOperand (.add m1 m2 m3) m1 m2 m3 (fun x y => wr64 s.cfg.overflow 1 (x + y)) s)

/-- MUL (R112): the exact product through `wr64` to the destination. -/
def execMul (m1 m2 m3 : Mode) (s : State) : StepOutcome :=
  finish s (threeOperand (.mul m1 m2 m3) m1 m2 m3 (fun x y => wr64 s.cfg.overflow 2 (x * y)) s)

end Sys2Proof.Machine
end

