-- ==== Sys2Proof/Machine/Compare.lean ====
section
/-! DEFINITION. The comparison family: LT and EQ, second operand against first (R121). -/

namespace Sys2Proof.Machine

open Sys2Proof

/-- LT (R120): 1 iff resolved-second > resolved-first. -/
def execLt (m1 m2 m3 : Mode) (s : State) : StepOutcome :=
  finish s (threeOperand (.lt m1 m2 m3) m1 m2 m3 (fun x y => .ok (truthWord (decide (y > x)))) s)

/-- EQ (R122): 1 iff resolved-second == resolved-first. -/
def execEq (m1 m2 m3 : Mode) (s : State) : StepOutcome :=
  finish s (threeOperand (.eq m1 m2 m3) m1 m2 m3 (fun x y => .ok (truthWord (decide (y = x)))) s)

end Sys2Proof.Machine
end

