-- ==== Sys2Proof/Machine/Control.lean ====
section
/-! DEFINITION. The control family: JT, JF and HLT. -/

namespace Sys2Proof.Machine

open Sys2Proof

/-- JT (R130): to the resolved target iff the condition is not 0. -/
def execJt (m1 m2 : Mode) (s : State) : StepOutcome :=
  finish s (jumpIf m1 m2 (fun x => decide (x ≠ 0)) s)

/-- JF (R131): to the resolved target iff the condition is 0. -/
def execJf (m1 m2 : Mode) (s : State) : StepOutcome :=
  finish s (jumpIf m1 m2 (fun x => decide (x = 0)) s)

/-- HLT (R133): CUR_INSN and STATUS; PC is not changed and no literal is fetched. -/
def execHlt (s : State) : StepOutcome := .next s.halt

end Sys2Proof.Machine
end

