-- ==== Sys2Proof/Machine/InputOutput.lean ====
section
/-! DEFINITION. The input/output family: IN and OUT. -/

namespace Sys2Proof.Machine

open Sys2Proof

/-- IN after its destination is resolved (R140): pop and complete, suspend on an empty queue, or, in blocking mode, wait
with nothing changed until the host's SUPPLY (R32; `hostSupply`). -/
def takeInput (m1 : Mode) (d : Int) (s : State) : Except Raised State :=
  match s.input with
  | .queue [] => .ok (s.suspend (.inp m1))
  | .queue (v :: rest) => completeInput d v (s.setQueue rest)
  | .blocking => .ok s

/-- IN (R140). -/
def execInp (m1 : Mode) (s : State) : StepOutcome :=
  finish s (do
    let d ← inputDest m1 s
    takeInput m1 d s)

/-- OUT (R142). -/
def execOut (m1 : Mode) (s : State) : StepOutcome :=
  finish s (oneRead m1 (fun x t => .ok (t.emit x)) s)

end Sys2Proof.Machine
end

