-- ==== Sys2Proof/Machine/RelativeBase.lean ====
section
/-! DEFINITION. The relative-base family: ARB. -/

namespace Sys2Proof.Machine

open Sys2Proof

/-- ARB (R150): the operand is read with the old RB; the sum goes through `wr64`. -/
def execArb (m1 : Mode) (s : State) : StepOutcome :=
  finish s (oneRead m1 (fun x t => do
    let r ← wr64 t.cfg.overflow 9 (t.rb.toInt + x.toInt)
    pure (t.setRb r)) s)

end Sys2Proof.Machine
end

