-- ==== Sys2Proof/Machine/Step.lean ====
section
/-! DEFINITION. One step of the block (R90, R91), and placing an instruction where the next step fetches. -/

namespace Sys2Proof.Machine

open Sys2Proof

/-- One step (R91). It exists only while STATUS is RUNNING (R90); otherwise the answer names the status (log 8). -/
def step (s : State) : Host.Outcome State Fault Refusal :=
  match s.status with
  | .running =>
    match fetch s with
    | .ok i => exec i s
    | .error r => .next (s.raise r)
  | .suspended => .fault .blockSuspended
  | .halted => .fault .blockHalted
  | .faulted => .fault .blockFaulted

/-- The 64-bit word number `k` of a table word whose bits above `nbits` are 0 (log 22). -/
def tableWord (nbits w k : Nat) : Word := BitVec.ofNat 64 (w % 2 ^ nbits / 2 ^ (64 * k))

/-- `s` with an instruction of up to four words (R60) stored at PC and the block RUNNING, so that the very next step
runs it. It stands for the host's START with that image (log 7). PC must address memory for it to mean anything. -/
def State.withFetchWord (s : State) (nbits w : Nat) : State :=
  let a := s.pc.toNat
  { s with
    mem := Memory.write (Memory.write (Memory.write (Memory.write s.mem a (tableWord nbits w 0))
      (a + 1) (tableWord nbits w 1)) (a + 2) (tableWord nbits w 2)) (a + 3) (tableWord nbits w 3)
    status := .running }

end Sys2Proof.Machine
end

