-- ==== Sys2Proof/Machine/HostActions.lean ====
section
/-! DEFINITION. The host's four actions on the block (R35, R36): START, RESUME, SUPPLY and READ. There is no other
(R36). An action the spec does not allow is refused by name. -/

namespace Sys2Proof.Machine

open Sys2Proof

/-- The resume token `(LAST_OUT or NONE, PC, CUR_INSN)` (R33). -/
structure ResumeToken where
  lastOut : Option Word
  pc : Word
  insn : Option Instr
deriving DecidableEq, Repr

/-- What READ returns (R35). `inq` is `none` in blocking mode, where INQ is absent (R29). -/
structure Readout where
  status : Status
  faultKind : Option FaultKind
  faultInfo : Option Int
  token : ResumeToken
  rb : Word
  mem : Memory
  inq : Option (List Word)
  outlog : List Word
deriving DecidableEq, Repr

/-- INQ, absent in blocking mode (R29). -/
def State.inq (s : State) : Option (List Word) :=
  match s.input with
  | .queue q => some q
  | .blocking => none

/-- INPUT_MODE and INQ as START sets them: queue if inputs are given, else blocking (R181). -/
def startInput : Option (List Word) → Input
  | some q => .queue q
  | none => .blocking

/-- The state START leaves (R38, R181), on a machine with the given parameters. -/
def startState (cfg : Config) (image : List Word) (inputs : Option (List Word)) (startOffset : Word) : State where
  cfg := cfg
  mem := Memory.loadFrom 0 image
  pc := startOffset
  rb := cfg.rbInit
  input := startInput inputs
  lastOut := none
  outlog := []
  status := .running
  faultKind := none
  faultInfo := none
  curInsn := none

/-- START before the first start, where there is no state yet (R35, R181, R184); refused for an image longer than the
capacity (R180). -/
def firstStart (cfg : Config) (image : List Word) (inputs : Option (List Word)) (startOffset : Word) : StepOutcome :=
  if image.length ≤ cfg.capacity then .next (startState cfg image inputs startOffset) else .refused .imageTooLong

/-- START of a block that has a state: allowed when STATUS is not RUNNING; it replaces the whole state (R35, R181). -/
def hostStart (image : List Word) (inputs : Option (List Word)) (startOffset : Word) (s : State) : StepOutcome :=
  if s.status = .running then .refused .startWhileRunning else firstStart s.cfg image inputs startOffset

/-- RESUME(more) (R183): allowed when STATUS is SUSPENDED or HALTED in queue mode (R36). -/
def hostResume (more : List Word) (s : State) : StepOutcome :=
  match s.status, s.input with
  | .suspended, .queue q => .next { s with input := .queue (q ++ more), status := .running }
  | .halted, .queue q => .next { s with input := .queue (q ++ more), status := .running }
  | _, _ => .refused .resumeNotAllowed

/-- The destination of the IN that waits for SUPPLY, if one waits: RUNNING, blocking mode, an IN at PC whose destination
resolves without fault (R32). -/
def waitingInput (s : State) : Option Int :=
  match s.status, s.input, fetch s with
  | .running, .blocking, .ok (.inp m1) =>
    match inputDest m1 s with
    | .ok d => some d
    | .error _ => none
  | _, _, _ => none

/-- SUPPLY(v) (R32, R35): the waiting IN completes with `v` as its input. -/
def hostSupply (v : Word) (s : State) : StepOutcome :=
  match waitingInput s with
  | some d => finish s (completeInput d v s)
  | none => .refused .supplyNotAllowed

/-- The resume token of a state (R33). -/
def State.token (s : State) : ResumeToken := ⟨s.lastOut, s.pc, s.curInsn⟩

/-- READ (R35): allowed when STATUS is not RUNNING; changes nothing, since it answers no state (log 18). -/
def hostRead (s : State) : Except Refusal Readout :=
  if s.status = .running then .error .readWhileRunning
  else .ok ⟨s.status, s.faultKind, s.faultInfo, s.token, s.rb, s.mem, s.inq, s.outlog⟩

end Sys2Proof.Machine
end

