-- ==== Sys2Proof/Machine/Run.lean ====
section
/-! DEFINITION. Runs (R101): steps until STATUS leaves RUNNING, under a step budget whose exhaustion is "unknown" and no
end of a run (R102). -/

namespace Sys2Proof.Machine

open Sys2Proof

/-- At most `k` steps from `s`; the state stays once STATUS has left RUNNING. -/
def run : Nat → State → State
  | 0, s => s
  | k + 1, s =>
    match step s with
    | .next t => run k t
    | .fault _ => s
    | .refused _ => s

/-- How a run stands when its step budget is used: the three ends of R101, or unknown (R102). -/
inductive RunEnd where
  | suspended
  | halted
  | faulted
  | unknown
deriving DecidableEq, Repr

/-- The end a status stands for. -/
def Status.runEnd : Status → RunEnd
  | .running => .unknown
  | .suspended => .suspended
  | .halted => .halted
  | .faulted => .faulted

/-- The verdict of a run of at most `k` steps (R101, R102). -/
def runEnd (k : Nat) (s : State) : RunEnd := (run k s).status.runEnd

end Sys2Proof.Machine
end

