-- ==== Sys2Proof/Safety.lean ====
section
/-! DEFINITION. The terms claims use: what a state's operands are, when they can be resolved, what a raised fault leaves,
what the fault registers may hold, and the invariant of the block. -/

namespace Sys2Proof.Machine

open Sys2Proof

/-- The decimal digit of a natural number at position `k`, `k = 0` the least significant (R10). -/
def digit (n k : Nat) : Nat := n / 10 ^ k % 10

/-- The opcode map as operand counts (R67, R75). -/
def operandsOf : Nat → Option Nat
  | 1 => some 3
  | 2 => some 3
  | 3 => some 1
  | 4 => some 1
  | 5 => some 2
  | 6 => some 2
  | 7 => some 3
  | 8 => some 3
  | 9 => some 1
  | 99 => some 0
  | _ => none

/-- The operand that is a write destination, if the opcode has one (R68). -/
def destOf : Nat → Option Nat
  | 1 => some 3
  | 2 => some 3
  | 3 => some 1
  | 7 => some 3
  | 8 => some 3
  | _ => none

/-- The word at an address, for any address MEM can hold. -/
def State.word (s : State) (a : Int) : Word := Memory.read s.mem a.toNat

/-- The literal word `L[i]` (R93). -/
def State.literal (s : State) (i : Nat) : Word := s.word (s.pc.toInt + i)

/-- The addresses of the literals `1 .. n` are valid (R93). -/
abbrev State.literalsIn (s : State) (n : Nat) : Prop :=
  0 ≤ s.pc.toInt + 1 ∧ s.pc.toInt + n < (s.cfg.capacity : Int)

/-- A read operand with mode `m` and literal `l` resolves without fault (R80). -/
abbrev State.readable (s : State) (m : Mode) (l : Word) : Prop := m = .immediate ∨ s.valid (addrOf m l s)

/-- The value of a readable operand (R80). -/
def State.value (s : State) (m : Mode) (l : Word) : Word :=
  match m with
  | .position => s.word l.toInt
  | .immediate => l
  | .relative => s.word (l.toInt + s.rb.toInt)

/-- Everything an F3RRW instruction resolves does resolve: the destination mode, the literals, both reads, the
destination address (R93, R94). -/
abbrev State.resolves3 (s : State) (m1 m2 m3 : Mode) : Prop :=
  m3.isDest = true ∧ s.literalsIn 3 ∧ s.readable m1 (s.literal 1) ∧ s.readable m2 (s.literal 2) ∧
    s.valid (addrOf m3 (s.literal 3) s)

/-- Everything an F2RR instruction resolves does resolve. -/
abbrev State.resolves2 (s : State) (m1 m2 : Mode) : Prop :=
  s.literalsIn 2 ∧ s.readable m1 (s.literal 1) ∧ s.readable m2 (s.literal 2)

/-- Everything an F1R instruction resolves does resolve. -/
abbrev State.resolvesRead (s : State) (m1 : Mode) : Prop := s.literalsIn 1 ∧ s.readable m1 (s.literal 1)

/-- Everything an F1W instruction resolves does resolve. -/
abbrev State.resolvesDest (s : State) (m1 : Mode) : Prop :=
  m1.isDest = true ∧ s.literalsIn 1 ∧ s.valid (addrOf m1 (s.literal 1) s)

/-- The integer value of read operand `i` with mode `m` (R80, R113). -/
def State.operand (s : State) (i : Nat) (m : Mode) : Int := (s.value m (s.literal i)).toInt

/-- The address of write destination `i` with mode `m` (R81). -/
def State.destination (s : State) (i : Nat) (m : Mode) : Int := addrOf m (s.literal i) s

/-- What raising a fault in `s` leaves (R160): three registers written, everything else as it was. -/
def State.faultedWith (s : State) (k : FaultKind) (n : Int) : State :=
  { s with status := .faulted, faultKind := some k, faultInfo := some n }

/-- `t` is `s` with the one word `v` stored at address `d` and PC advanced by `n`, nothing else changed. -/
def State.StoredAndAdvanced (s t : State) (d : Int) (v : Word) (n : Nat) : Prop :=
  t = { s with mem := t.mem, pc := t.pc } ∧ t.pc.toInt = s.pc.toInt + n ∧
    ∀ a : Nat, Memory.read t.mem a = if (a : Int) = d then v else Memory.read s.mem a

/-- The modes of an instruction, operand 1 first (R77). -/
def modesOf : Instr → List Mode
  | .add m1 m2 m3 => [m1, m2, m3]
  | .mul m1 m2 m3 => [m1, m2, m3]
  | .inp m1 => [m1]
  | .out m1 => [m1]
  | .jt m1 m2 => [m1, m2]
  | .jf m1 m2 => [m1, m2]
  | .lt m1 m2 m3 => [m1, m2, m3]
  | .eq m1 m2 m3 => [m1, m2, m3]
  | .arb m1 => [m1]
  | .hlt => []

/-- A run from `s` ends in `t` (R101): suspended, halted or faulted. -/
def Reaches (s t : State) : Prop := ∃ k, run k s = t ∧ t.status ≠ .running

/-- Two ends of runs that agree in everything R103 lists, CUR_INSN excepted where the end is a fault: a fault leaves
CUR_INSN as it was (R160), so it shows whether the block was suspended before (log 17). -/
def SameEnd (t t' : State) : Prop :=
  t' = { t with curInsn := t'.curInsn } ∧ (t.status ≠ .faulted → t'.curInsn = t.curInsn)

/-- What FAULT_INFO may hold for each FAULT_KIND (R161). -/
def legalInfo (c : Config) (k : FaultKind) (n : Int) : Prop :=
  match k with
  | .decodeOpcode => -99 ≤ n ∧ n ≤ 99 ∧ operandsOf n.toNat = none
  | .decodeMode => 3 ≤ n ∧ n ≤ 9
  | .decodeImmDest => 0 ≤ n ∧ n ≤ 9223372036854775807 ∧ ∃ p, destOf (n.toNat % 100) = some p ∧ digit n.toNat (1 + p) = 1
  | .decodeHighDigit => c.strictHighDigits = true ∧ 0 < n
  | .address => ¬(0 ≤ n ∧ n < (c.capacity : Int)) ∧ -18446744073709551616 ≤ n ∧ n ≤ 18446744073709551614
  | .overflow => c.overflow = .fault ∧ (n = 1 ∨ n = 2 ∨ n = 9)

/-- The invariant every step and every host action keeps. -/
structure State.Inv (s : State) : Prop where
  /-- The parameters meet R5. -/
  cfgWf : s.cfg.wf = true
  /-- MEM is in its canonical form (log 11). -/
  memWf : s.mem.wf = true
  /-- No cell lies at or beyond `C` (R27, R46). -/
  memBelow : s.mem.below s.cfg.capacity = true
  /-- SUSPENDED: PC addresses the IN that found INQ empty, latched in CUR_INSN (R24, R26); its destination has been
  resolved (R140). -/
  suspendedAtIn : s.status = .suspended →
    s.input = .queue [] ∧ ∃ m, fetch s = .ok (.inp m) ∧ s.resolvesDest m ∧ s.curInsn = some (.inp m)
  /-- HALTED: PC addresses the HLT, and CUR_INSN holds the Halt marker (R24, R26). -/
  haltedAtHlt : s.status = .halted → fetch s = .ok .hlt ∧ s.curInsn = some .hlt
  /-- FAULT_KIND holds a code exactly when FAULTED (R25). -/
  faultKindIff : s.faultKind.isSome = true ↔ s.status = .faulted
  /-- FAULT_INFO holds an integer exactly when FAULTED (R25). -/
  faultInfoIff : s.faultInfo.isSome = true ↔ s.status = .faulted
  /-- The fault registers hold a pair of R161. -/
  faultLegal : ∀ k n, s.faultKind = some k → s.faultInfo = some n → legalInfo s.cfg k n
  /-- LAST_OUT is the newest word of OUTLOG, and invalid exactly while there is none (R30, R31). -/
  lastOutNewest : s.lastOut = s.outlog.getLast?
  /-- CUR_INSN holds NONE, an IN with a legal destination mode, or the Halt marker (R26). -/
  curInsnLegal : ∀ i, s.curInsn = some i → i = .hlt ∨ ∃ m, m.isDest = true ∧ i = .inp m

end Sys2Proof.Machine
end

