-- ==== Sys2Proof/Certificates/Slice0/Obligations.lean ====
section
/-! DEFINITION. The statements about the block, each naming the rule of spec/ it rests on. None names a program. -/

open Sys2Proof Sys2Proof.Machine

/-! ## Encoding -/

/-- R78: decoding the canonical word of a well-formed instruction gives the instruction back, strict or not; the same
word with a non-zero high part decodes to it too when not strict, and raises DECODE_HIGH_DIGIT when strict (R70). -/
def Obligations.DecodeOfEncodeIsTheInstruction : Prop :=
  ∀ (strict : Bool) (i : Instr), i.wf = true →
    decode strict (encode i) = .ok i ∧
    ∀ h : Nat, 1 ≤ h → encodeNat i + 10 ^ (2 + i.operandCount) * h ≤ 9223372036854775807 →
      decode strict (BitVec.ofNat 64 (encodeNat i + 10 ^ (2 + i.operandCount) * h)) =
        if strict then .error ⟨.decodeHighDigit, h⟩ else .ok i

/-- R61, R71, R83: a word decodes to `i` exactly when `i` is well-formed and the word is
`opcode + 100*m1 + 1000*m2 + 10000*m3 + 10^(2+n)*h` for a high part `h`, which is 0 when strict. -/
def Obligations.DecodeAcceptsExactlyTheDecimalForms : Prop :=
  ∀ (strict : Bool) (w : Word) (i : Instr),
    decode strict w = .ok i ↔
      i.wf = true ∧ ∃ h : Nat, w.toInt = (encodeNat i + 10 ^ (2 + i.operandCount) * h : Nat) ∧ (strict = true → h = 0)

/-- R69 (the spec's decision D6, D4, D7): the five checks of the decoder in their order, each with its fault and info. -/
def Obligations.DecodeReportsTheFirstFailingCheck : Prop :=
  ∀ (strict : Bool) (w : Word),
    (w.toInt < 0 →
      decode strict w = .error ⟨.decodeOpcode, w.toInt.tmod 100⟩ ∧ -99 ≤ w.toInt.tmod 100 ∧ w.toInt.tmod 100 ≤ 0) ∧
    (0 ≤ w.toInt → operandsOf (w.toNat % 100) = none →
      decode strict w = .error ⟨.decodeOpcode, (w.toNat % 100 : Nat)⟩) ∧
    ∀ n, 0 ≤ w.toInt → operandsOf (w.toNat % 100) = some n →
      (∀ j, 1 ≤ j → j ≤ n → (∀ k, 1 ≤ k → k < j → digit w.toNat (1 + k) ≤ 2) → 3 ≤ digit w.toNat (1 + j) →
        decode strict w = .error ⟨.decodeMode, digit w.toNat (1 + j)⟩) ∧
      ((∀ k, 1 ≤ k → k ≤ n → digit w.toNat (1 + k) ≤ 2) →
        (∀ p, destOf (w.toNat % 100) = some p → digit w.toNat (1 + p) = 1 →
          decode strict w = .error ⟨.decodeImmDest, w.toInt⟩) ∧
        ((∀ p, destOf (w.toNat % 100) = some p → digit w.toNat (1 + p) ≠ 1) → strict = true →
          w.toNat / 10 ^ (2 + n) ≠ 0 →
          decode strict w = .error ⟨.decodeHighDigit, (w.toNat / 10 ^ (2 + n) : Nat)⟩))

/-- R65: digit 0 is Position, 1 Immediate, 2 Relative in every used place of every word that decodes; a bad digit 3 to 9
raises DECODE_MODE carrying the digit. That the first bad digit is the one reported, also before a later bad digit or an
Immediate destination, is the check order of R69, which is a choice: the spec's decision D6 (log 15). -/
def Obligations.ModeDigitsSelectModes : Prop :=
  ∀ (strict : Bool) (w : Word),
    (∀ i, decode strict w = .ok i → ∀ j m, (modesOf i)[j]? = some m →
      (digit w.toNat (2 + j) = 0 ∧ m = .position) ∨ (digit w.toNat (2 + j) = 1 ∧ m = .immediate) ∨
        (digit w.toNat (2 + j) = 2 ∧ m = .relative)) ∧
    ∀ n j, 0 ≤ w.toInt → operandsOf (w.toNat % 100) = some n → 1 ≤ j → j ≤ n →
      (∀ k, 1 ≤ k → k < j → digit w.toNat (1 + k) ≤ 2) →
      3 ≤ digit w.toNat (1 + j) → decode strict w = .error ⟨.decodeMode, digit w.toNat (1 + j)⟩

/-- R89: the source's own decoder checks, absent mode digits as Position included. -/
def Obligations.DecodeOfTheSourceExamples : Prop :=
  decode false 1 = .ok (.add .position .position .position) ∧ decode false 99 = .ok .hlt ∧
  decode false 1002 = .ok (.mul .position .immediate .position) ∧
  decode false 2 = .ok (.mul .position .position .position) ∧ decode false 3 = .ok (.inp .position) ∧
  decode false 4 = .ok (.out .position) ∧ decode false 5 = .ok (.jt .position .position) ∧
  decode false 6 = .ok (.jf .position .position) ∧ decode false 7 = .ok (.lt .position .position .position) ∧
  decode false 8 = .ok (.eq .position .position .position) ∧ decode false 9 = .ok (.arb .position)

/-- 95 section 2.1: words written out digit by digit from R61, one or more for each family, and words that do not
decode. -/
def Obligations.DecodeOfWrittenOutWords : Prop :=
  decode false 22201 = .ok (.add .relative .relative .relative) ∧
  decode false 21107 = .ok (.lt .immediate .immediate .relative) ∧
  decode false 1008 = .ok (.eq .position .immediate .position) ∧
  decode false 1105 = .ok (.jt .immediate .immediate) ∧ decode false 1006 = .ok (.jf .position .immediate) ∧
  decode false 203 = .ok (.inp .relative) ∧ decode false 104 = .ok (.out .immediate) ∧
  decode false 109 = .ok (.arb .immediate) ∧ decode false 199 = .ok .hlt ∧
  decode true 199 = .error ⟨.decodeHighDigit, 1⟩ ∧ decode false 11101 = .error ⟨.decodeImmDest, 11101⟩ ∧
  decode false 10301 = .error ⟨.decodeMode, 3⟩ ∧ decode false 98 = .error ⟨.decodeOpcode, 98⟩ ∧
  decode false (BitVec.ofInt 64 (-99)) = .error ⟨.decodeOpcode, -99⟩

/-! ## Memory -/

/-- R46, R47, R48: a read and a write of an address outside `[0, C)` raise AddressError with the address; a read inside
gives the word there. -/
def Obligations.MemoryAccessChecksTheAddress : Prop :=
  ∀ (s : State) (a : Int),
    (0 ≤ a → a < (s.cfg.capacity : Int) → memRead a s = .ok (Memory.read s.mem a.toNat)) ∧
    (a < 0 ∨ (s.cfg.capacity : Int) ≤ a →
      memRead a s = .error ⟨.address, a⟩ ∧ ∀ v, memWrite a v s = .error ⟨.address, a⟩)

/-- R48, R50: a write of a valid address changes exactly that word, whether the image reached it or not. That it keeps the
canonical form and the bound of the list of cells is about the model's own representation of MEM (log 11), not a rule of
the spec. -/
def Obligations.MemWriteChangesExactlyOneWord : Prop :=
  ∀ (s : State) (a : Int) (v : Word), s.mem.wf = true → s.mem.below s.cfg.capacity = true → s.valid a →
    ∃ t, memWrite a v s = .ok t ∧ t = { s with mem := t.mem } ∧ t.mem.wf = true ∧
      t.mem.below t.cfg.capacity = true ∧
      ∀ b : Nat, Memory.read t.mem b = if (b : Int) = a then v else Memory.read s.mem b

/-- R49 and log 11: two canonical memories that read alike at every index are the same data. -/
def Obligations.CanonicalMemoryIsDeterminedByItsReads : Prop :=
  ∀ m m' : Memory, m.wf = true → m'.wf = true → (∀ a, Memory.read m a = Memory.read m' a) → m = m'

/-! ## Operands and results -/

/-- R80: the literal of operand `i` is the word at `PC + i`; Position dereferences the literal, Immediate is the literal,
Relative dereferences literal + RB; an invalid address raises AddressError with that address. That the sum is exact, also
outside INT64, is R46's choice: the spec's decision D3 (log 14). -/
def Obligations.ReadOperandResolution : Prop :=
  ∀ (s : State) (i : Nat) (l : Word),
    (s.valid (s.pc.toInt + i) → lit i s = .ok (s.word (s.pc.toInt + i))) ∧
    (s.valid l.toInt → readop .position l s = .ok (s.word l.toInt)) ∧
    (¬s.valid l.toInt → readop .position l s = .error ⟨.address, l.toInt⟩) ∧
    readop .immediate l s = .ok l ∧
    (s.valid (l.toInt + s.rb.toInt) → readop .relative l s = .ok (s.word (l.toInt + s.rb.toInt))) ∧
    (¬s.valid (l.toInt + s.rb.toInt) → readop .relative l s = .error ⟨.address, l.toInt + s.rb.toInt⟩)

/-- R81: a destination is the literal, or literal + RB under Relative. That it is checked when resolved is the spec's
decision D10 (log 15), and that the sum is exact, also outside INT64, its decision D3 (R46, log 14). -/
def Obligations.WriteDestinationResolution : Prop :=
  ∀ (s : State) (l : Word),
    (s.valid l.toInt → dest .position l s = .ok l.toInt) ∧
    (¬s.valid l.toInt → dest .position l s = .error ⟨.address, l.toInt⟩) ∧
    (s.valid (l.toInt + s.rb.toInt) → dest .relative l s = .ok (l.toInt + s.rb.toInt)) ∧
    (¬s.valid (l.toInt + s.rb.toInt) → dest .relative l s = .error ⟨.address, l.toInt + s.rb.toInt⟩)

/-- R111 (the spec's decision D2): a result in INT64 is exact under either policy; outside, `fault` raises OVERFLOW with
the opcode, and `wrap` gives the two's-complement residue, which lies in INT64 and is the low 64 bits. -/
def Obligations.ExactResultOrOverflowRule : Prop :=
  ∀ (op : Nat) (v : Int),
    (in64 v → ∀ p, ∃ r, wr64 p op v = .ok r ∧ r.toInt = v) ∧
    (¬in64 v → wr64 .fault op v = .error ⟨.overflow, op⟩ ∧
      ∃ r, wr64 .wrap op v = .ok r ∧ r = BitVec.ofInt 64 v ∧
        r.toInt = v - 18446744073709551616 * ((v + 9223372036854775808).fdiv 18446744073709551616))

/-! ## What each instruction does where it completes -/

/-- R110: ADD stores the exact sum of its operands at its destination and moves PC on by 4; a sum outside INT64 stores
its residue when the policy is `wrap` (D2). Nothing else changes. -/
def Obligations.AddStoresTheSum : Prop :=
  ∀ (s : State) (m1 m2 m3 : Mode), s.cfg.wf = true → s.mem.wf = true → s.resolves3 m1 m2 m3 →
    (in64 (s.operand 1 m1 + s.operand 2 m2) ∨ s.cfg.overflow = .wrap) →
    ∃ t v, exec (.add m1 m2 m3) s = .next t ∧ State.StoredAndAdvanced s t (s.destination 3 m3) v 4 ∧
      (in64 (s.operand 1 m1 + s.operand 2 m2) → v.toInt = s.operand 1 m1 + s.operand 2 m2) ∧
      v = s.value m1 (s.literal 1) + s.value m2 (s.literal 2)

/-- R112: MUL stores the exact product of its operands at its destination and moves PC on by 4; a product outside INT64
stores its residue when the policy is `wrap` (D2). Nothing else changes. -/
def Obligations.MulStoresTheProduct : Prop :=
  ∀ (s : State) (m1 m2 m3 : Mode), s.cfg.wf = true → s.mem.wf = true → s.resolves3 m1 m2 m3 →
    (in64 (s.operand 1 m1 * s.operand 2 m2) ∨ s.cfg.overflow = .wrap) →
    ∃ t v, exec (.mul m1 m2 m3) s = .next t ∧ State.StoredAndAdvanced s t (s.destination 3 m3) v 4 ∧
      (in64 (s.operand 1 m1 * s.operand 2 m2) → v.toInt = s.operand 1 m1 * s.operand 2 m2) ∧
      v = s.value m1 (s.literal 1) * s.value m2 (s.literal 2)

/-- R121: LT writes 1 iff resolved-second > resolved-first and EQ iff resolved-second == resolved-first, else 0, for
every overflow policy; so LT with first 3 and second 5 writes 1, and with first 5 and second 3 writes 0. -/
def Obligations.ComparisonsCompareSecondAgainstFirst : Prop :=
  ∀ (s : State) (m1 m2 m3 : Mode), s.cfg.wf = true → s.mem.wf = true → s.resolves3 m1 m2 m3 →
    (∃ t v, exec (.lt m1 m2 m3) s = .next t ∧ State.StoredAndAdvanced s t (s.destination 3 m3) v 4 ∧
      v.toInt = (if s.operand 2 m2 > s.operand 1 m1 then 1 else 0) ∧
      (s.operand 1 m1 = 3 → s.operand 2 m2 = 5 → v = 1) ∧ (s.operand 1 m1 = 5 → s.operand 2 m2 = 3 → v = 0)) ∧
    (∃ t v, exec (.eq m1 m2 m3) s = .next t ∧ State.StoredAndAdvanced s t (s.destination 3 m3) v 4 ∧
      v.toInt = (if s.operand 2 m2 = s.operand 1 m1 then 1 else 0))

/-- R130: JT goes to the value of its second operand iff the first is not 0, else to `PC + 3`; only PC changes, and the
target is not checked. -/
def Obligations.JumpIfTrueMovesOnlyPc : Prop :=
  ∀ (s : State) (m1 m2 : Mode), s.cfg.wf = true → s.resolves2 m1 m2 →
    ∃ t, exec (.jt m1 m2) s = .next t ∧ t = { s with pc := t.pc } ∧
      (s.operand 1 m1 ≠ 0 → t.pc = s.value m2 (s.literal 2)) ∧
      (s.operand 1 m1 = 0 → t.pc.toInt = s.pc.toInt + 3)

/-- R131: JF goes to the value of its second operand iff the first is 0, else to `PC + 3`; only PC changes, and the
target is not checked. -/
def Obligations.JumpIfFalseMovesOnlyPc : Prop :=
  ∀ (s : State) (m1 m2 : Mode), s.cfg.wf = true → s.resolves2 m1 m2 →
    ∃ t, exec (.jf m1 m2) s = .next t ∧ t = { s with pc := t.pc } ∧
      (s.operand 1 m1 = 0 → t.pc = s.value m2 (s.literal 2)) ∧
      (s.operand 1 m1 ≠ 0 → t.pc.toInt = s.pc.toInt + 3)

/-- R140: with a word in INQ, IN takes the first one, stores it at its destination and moves PC on by 2; the rest of INQ
stays in order. -/
def Obligations.InputStoresTheFirstQueuedWord : Prop :=
  ∀ (s : State) (m1 : Mode) (v : Word) (rest : List Word), s.cfg.wf = true → s.mem.wf = true → s.resolvesDest m1 →
    s.input = .queue (v :: rest) →
    ∃ t, exec (.inp m1) s = .next t ∧ t = { s with mem := t.mem, pc := t.pc, input := .queue rest } ∧
      t.pc.toInt = s.pc.toInt + 2 ∧
      ∀ a : Nat, Memory.read t.mem a = if (a : Int) = s.destination 1 m1 then v else Memory.read s.mem a

/-- R140, R32, R35: with INQ empty IN suspends, latching itself in CUR_INSN and changing nothing else; in blocking mode
it waits with nothing changed, and the host's SUPPLY(v) to the waiting IN completes it with `v`. -/
def Obligations.InputSuspendsOrWaits : Prop :=
  ∀ (s : State) (m1 : Mode), s.cfg.wf = true → s.mem.wf = true → s.resolvesDest m1 →
    (s.input = .queue [] → exec (.inp m1) s = .next { s with status := .suspended, curInsn := some (.inp m1) }) ∧
    (s.input = .blocking → exec (.inp m1) s = .next s ∧
      (s.status = .running → fetch s = .ok (.inp m1) → ∀ v, ∃ t, hostSupply v s = .next t ∧
        State.StoredAndAdvanced s t (s.destination 1 m1) v 2))

/-- R142: OUT puts its operand in LAST_OUT, sets LAST_OUT_VALID, appends it to OUTLOG (D15) and moves PC on by 2. -/
def Obligations.OutputRecordsItsOperand : Prop :=
  ∀ (s : State) (m1 : Mode), s.cfg.wf = true → s.resolvesRead m1 →
    ∃ t, exec (.out m1) s = .next t ∧ t = { s with lastOut := t.lastOut, outlog := t.outlog, pc := t.pc } ∧
      t.lastOut = some (s.value m1 (s.literal 1)) ∧ t.lastOutValid = true ∧
      t.outlog = s.outlog ++ [s.value m1 (s.literal 1)] ∧ t.pc.toInt = s.pc.toInt + 2

/-- R150: ARB adds its operand, read with the old RB, to RB and moves PC on by 2; a sum outside INT64 gives its residue
when the policy is `wrap` (D2). RB may become negative. -/
def Obligations.AdjustRelativeBaseAddsItsOperand : Prop :=
  ∀ (s : State) (m1 : Mode), s.cfg.wf = true → s.resolvesRead m1 →
    (in64 (s.rb.toInt + s.operand 1 m1) ∨ s.cfg.overflow = .wrap) →
    ∃ t, exec (.arb m1) s = .next t ∧ t = { s with rb := t.rb, pc := t.pc } ∧
      (in64 (s.rb.toInt + s.operand 1 m1) → t.rb.toInt = s.rb.toInt + s.operand 1 m1) ∧
      t.rb = s.rb + s.value m1 (s.literal 1) ∧ t.pc.toInt = s.pc.toInt + 2

/-- R133: HLT is the word 99, one word wide; a fetched word with `w mod 100 = 99` halts with CUR_INSN the Halt marker and
PC, MEM and all else unchanged; it faults only at fetch, or under STRICT_HIGH_DIGITS with a non-zero high part; the token
shows the HLT's PC and LAST_OUT or NONE; and a RESUME executes it again. -/
def Obligations.HaltStopsAtItsOwnAddress : Prop :=
  encode .hlt = 99 ∧ Instr.hlt.width = 1 ∧ ∀ s : State,
    exec .hlt s = .next { s with status := .halted, curInsn := some .hlt } ∧
    (s.status = .running →
      (¬s.valid s.pc.toInt → step s = .next (s.faultedWith .address s.pc.toInt)) ∧
      (s.valid s.pc.toInt → 0 ≤ (s.word s.pc.toInt).toInt → (s.word s.pc.toInt).toNat % 100 = 99 →
        (s.cfg.strictHighDigits = true → (s.word s.pc.toInt).toNat / 100 ≠ 0 →
          step s = .next (s.faultedWith .decodeHighDigit ((s.word s.pc.toInt).toNat / 100 : Nat))) ∧
        (s.cfg.strictHighDigits = false ∨ (s.word s.pc.toInt).toNat / 100 = 0 →
          ∃ t, step s = .next t ∧ t = { s with status := .halted, curInsn := some .hlt } ∧
            t.token = ⟨s.lastOut, s.pc, some .hlt⟩ ∧
            ∀ q more, s.input = .queue q → ∃ u, hostResume more t = .next u ∧
              step u = .next { t with input := .queue (q ++ more) })))

/-! ## Faults -/

/-- R111, R110, R112, R150 (D2): under the `fault` policy a result outside INT64 raises OVERFLOW with the opcode, and
nothing but the fault registers and STATUS changes. -/
def Obligations.OverflowFaultsWithTheOpcode : Prop :=
  ∀ (s : State) (m1 m2 m3 : Mode), s.cfg.overflow = .fault →
    (s.resolves3 m1 m2 m3 →
      (¬in64 (s.operand 1 m1 + s.operand 2 m2) → exec (.add m1 m2 m3) s = .next (s.faultedWith .overflow 1)) ∧
      (¬in64 (s.operand 1 m1 * s.operand 2 m2) → exec (.mul m1 m2 m3) s = .next (s.faultedWith .overflow 2))) ∧
    (s.resolvesRead m1 → ¬in64 (s.rb.toInt + s.operand 1 m1) → exec (.arb m1) s = .next (s.faultedWith .overflow 9))

/-- R163 (D3, D8, D26) for ADD, MUL, LT, EQ: literals in order, then operand 1, then operand 2, then the destination; the
first invalid address is the one reported, and it comes before any overflow. -/
def Obligations.ThreeOperandFaultPriority : Prop :=
  ∀ (s : State) (m1 m2 m3 : Mode) (i : Instr), m3.isDest = true →
    (i = .add m1 m2 m3 ∨ i = .mul m1 m2 m3 ∨ i = .lt m1 m2 m3 ∨ i = .eq m1 m2 m3) →
    (¬s.valid (s.pc.toInt + 1) → exec i s = .next (s.faultedWith .address (s.pc.toInt + 1))) ∧
    (s.valid (s.pc.toInt + 1) → ¬s.valid (s.pc.toInt + 2) →
      exec i s = .next (s.faultedWith .address (s.pc.toInt + 2))) ∧
    (s.valid (s.pc.toInt + 1) → s.valid (s.pc.toInt + 2) → ¬s.valid (s.pc.toInt + 3) →
      exec i s = .next (s.faultedWith .address (s.pc.toInt + 3))) ∧
    (s.literalsIn 3 → ¬s.readable m1 (s.literal 1) →
      exec i s = .next (s.faultedWith .address (addrOf m1 (s.literal 1) s))) ∧
    (s.literalsIn 3 → s.readable m1 (s.literal 1) → ¬s.readable m2 (s.literal 2) →
      exec i s = .next (s.faultedWith .address (addrOf m2 (s.literal 2) s))) ∧
    (s.literalsIn 3 → s.readable m1 (s.literal 1) → s.readable m2 (s.literal 2) → ¬s.valid (s.destination 3 m3) →
      exec i s = .next (s.faultedWith .address (s.destination 3 m3)))

/-- R163, R94 (D3, D8, D26) for JT and JF: both operands are resolved, taken or not, so an invalid target operand faults
whatever the condition. -/
def Obligations.JumpFaultPriority : Prop :=
  ∀ (s : State) (m1 m2 : Mode) (i : Instr), (i = .jt m1 m2 ∨ i = .jf m1 m2) →
    (¬s.valid (s.pc.toInt + 1) → exec i s = .next (s.faultedWith .address (s.pc.toInt + 1))) ∧
    (s.valid (s.pc.toInt + 1) → ¬s.valid (s.pc.toInt + 2) →
      exec i s = .next (s.faultedWith .address (s.pc.toInt + 2))) ∧
    (s.literalsIn 2 → ¬s.readable m1 (s.literal 1) →
      exec i s = .next (s.faultedWith .address (addrOf m1 (s.literal 1) s))) ∧
    (s.literalsIn 2 → s.readable m1 (s.literal 1) → ¬s.readable m2 (s.literal 2) →
      exec i s = .next (s.faultedWith .address (addrOf m2 (s.literal 2) s)))

/-- R163, R162 (D3, D10, D26) for the one-operand instructions: OUT and ARB fault on the literal, then on the operand; IN
faults on the literal, then on the destination, whatever INQ or the input mode holds, and consumes nothing. -/
def Obligations.OneOperandFaultPriority : Prop :=
  ∀ (s : State) (m1 : Mode),
    (∀ i, (i = .out m1 ∨ i = .arb m1) →
      (¬s.valid (s.pc.toInt + 1) → exec i s = .next (s.faultedWith .address (s.pc.toInt + 1))) ∧
      (s.valid (s.pc.toInt + 1) → ¬s.readable m1 (s.literal 1) →
        exec i s = .next (s.faultedWith .address (addrOf m1 (s.literal 1) s)))) ∧
    (m1.isDest = true →
      (¬s.valid (s.pc.toInt + 1) → exec (.inp m1) s = .next (s.faultedWith .address (s.pc.toInt + 1))) ∧
      (s.valid (s.pc.toInt + 1) → ¬s.valid (s.destination 1 m1) →
        exec (.inp m1) s = .next (s.faultedWith .address (s.destination 1 m1))))

/-- R92, R72, R163: a step first faults on a PC outside `[0, C)`, then on a word that does not decode, before any literal
or operand. -/
def Obligations.FetchAndDecodeFaultFirst : Prop :=
  ∀ s : State, s.status = .running →
    (¬s.valid s.pc.toInt → step s = .next (s.faultedWith .address s.pc.toInt)) ∧
    (s.valid s.pc.toInt → ∀ k n, decode s.cfg.strictHighDigits (s.word s.pc.toInt) = .error ⟨k, n⟩ →
      step s = .next (s.faultedWith k n))

/-- The model's choice (log 16): executing a term with an Immediate destination, which the decoder never yields, takes
DECODE_IMM_DEST with the term's canonical word. -/
def Obligations.ImmediateDestinationTermFaults : Prop :=
  ∀ (s : State) (m1 m2 : Mode) (i : Instr),
    (i = .add m1 m2 .immediate ∨ i = .mul m1 m2 .immediate ∨ i = .lt m1 m2 .immediate ∨ i = .eq m1 m2 .immediate ∨
      i = .inp .immediate) →
    exec i s = .next (s.faultedWith .decodeImmDest (encode i).toNat)

/-- R165: a FAULTED block takes no step, and neither RESUME nor SUPPLY applies to it; START, and only START, leaves
FAULTED. -/
def Obligations.FaultedIsLeftOnlyByStart : Prop :=
  ∀ s : State, s.status = .faulted →
    (∀ t, step s ≠ .next t) ∧ (∀ more t, hostResume more s ≠ .next t) ∧ (∀ v t, hostSupply v s ≠ .next t) ∧
    ∀ image inputs off, image.length ≤ s.cfg.capacity →
      ∃ t, hostStart image inputs off s = .next t ∧ t.status = .running ∧ t.faultKind = none ∧ t.faultInfo = none

/-- R98: a step that raises, suspends or waits makes no change to MEM, RB, LAST_OUT, LAST_OUT_VALID, OUTLOG, INQ or
PC. -/
def Obligations.UnfinishedStepsChangeNothing : Prop :=
  ∀ s t : State, step s = .next t →
    (t.status = .faulted ∨ t.status = .suspended ∨ (s.input = .blocking ∧ ∃ m, fetch s = .ok (.inp m))) →
    t.mem = s.mem ∧ t.rb = s.rb ∧ t.lastOut = s.lastOut ∧ t.lastOutValid = s.lastOutValid ∧ t.outlog = s.outlog ∧
      t.input = s.input ∧ t.pc = s.pc ∧ t.cfg = s.cfg

/-! ## Frames -/

/-- R96, R53: what ADD, MUL, LT and EQ leave unchanged whenever they answer a next state: after a fault everything but
the fault registers and STATUS; else everything but PC and the word at the destination. -/
def Obligations.FrameOfTheStoringInstructions : Prop :=
  ∀ (s t : State) (m1 m2 m3 : Mode) (i : Instr),
    (i = .add m1 m2 m3 ∨ i = .mul m1 m2 m3 ∨ i = .lt m1 m2 m3 ∨ i = .eq m1 m2 m3) → exec i s = .next t →
    (∃ k n, t = s.faultedWith k n) ∨
    (t = { s with mem := t.mem, pc := t.pc } ∧
      ∀ a : Nat, (a : Int) ≠ s.destination 3 m3 → Memory.read t.mem a = Memory.read s.mem a)

/-- R96: what IN leaves unchanged whenever it answers a next state: a fault and a suspension write status registers only,
a wait writes nothing, and a completed IN writes PC, INQ and the word at the destination only. -/
def Obligations.FrameOfInput : Prop :=
  ∀ (s t : State) (m1 : Mode), exec (.inp m1) s = .next t →
    (∃ k n, t = s.faultedWith k n) ∨ t = { s with status := .suspended, curInsn := some (.inp m1) } ∨ t = s ∨
    (t = { s with mem := t.mem, pc := t.pc, input := t.input } ∧
      (∃ v q, s.input = .queue (v :: q) ∧ t.input = .queue q) ∧
      ∀ a : Nat, (a : Int) ≠ s.destination 1 m1 → Memory.read t.mem a = Memory.read s.mem a)

/-- R96: JT, JF, OUT, ARB and HLT store nothing; apart from the fault registers and STATUS after a fault, JT and JF write
PC only, OUT PC, LAST_OUT and OUTLOG, ARB PC and RB, HLT STATUS and CUR_INSN. -/
def Obligations.FrameOfInstructionsThatStoreNothing : Prop :=
  ∀ (s t : State) (m1 m2 : Mode),
    (exec (.jt m1 m2) s = .next t ∨ exec (.jf m1 m2) s = .next t →
      (∃ k n, t = s.faultedWith k n) ∨ t = { s with pc := t.pc }) ∧
    (exec (.out m1) s = .next t →
      (∃ k n, t = s.faultedWith k n) ∨ t = { s with pc := t.pc, lastOut := t.lastOut, outlog := t.outlog }) ∧
    (exec (.arb m1) s = .next t → (∃ k n, t = s.faultedWith k n) ∨ t = { s with pc := t.pc, rb := t.rb }) ∧
    (exec .hlt s = .next t → t = { s with status := .halted, curInsn := some .hlt })

/-! ## The whole machine -/

/-- R91, R95: when the word at PC decodes to `i`, `i` is well-formed and a step of a RUNNING block is `exec i`. -/
def Obligations.StepRunsTheDecodedInstruction : Prop :=
  ∀ (s : State) (i : Instr), s.status = .running → 0 ≤ s.pc.toInt → s.pc.toInt < (s.cfg.capacity : Int) →
    decode s.cfg.strictHighDigits (Memory.read s.mem s.pc.toInt.toNat) = .ok i →
    i.wf = true ∧ step s = exec i s

/-- R90: a step exists exactly while STATUS is RUNNING, whatever the word at PC is; otherwise the model names the status
(log 8). -/
def Obligations.StepsExistExactlyWhileRunning : Prop :=
  ∀ s : State, ((∃ t, step s = .next t) ↔ s.status = .running) ∧ (∀ r, step s ≠ .refused r) ∧
    (s.status = .suspended → step s = .fault .blockSuspended) ∧ (s.status = .halted → step s = .fault .blockHalted) ∧
    (s.status = .faulted → step s = .fault .blockFaulted)

/-- R97: the PC update of a completing step: by the width, exactly and to at most `C`; a taken JT or JF goes to its
target instead. -/
def Obligations.ProgramCounterUpdate : Prop :=
  ∀ (s t : State) (i : Instr), s.cfg.wf = true → step s = .next t → fetch s = .ok i → t.status = .running →
    ¬(s.input = .blocking ∧ ∃ m, i = .inp m) →
    (∀ m1 m2, i = .jt m1 m2 → s.operand 1 m1 ≠ 0 → t.pc = s.value m2 (s.literal 2)) ∧
    (∀ m1 m2, i = .jf m1 m2 → s.operand 1 m1 = 0 → t.pc = s.value m2 (s.literal 2)) ∧
    ((∀ m1 m2, i = .jt m1 m2 → s.operand 1 m1 = 0) → (∀ m1 m2, i = .jf m1 m2 → s.operand 1 m1 ≠ 0) →
      t.pc.toInt = s.pc.toInt + i.width ∧ t.pc.toInt ≤ s.cfg.capacity) ∧
    ∀ m1 m2 m3, (Instr.add m1 m2 m3).width = 4 ∧ (Instr.mul m1 m2 m3).width = 4 ∧ (Instr.lt m1 m2 m3).width = 4 ∧
      (Instr.eq m1 m2 m3).width = 4 ∧ (Instr.jt m1 m2).width = 3 ∧ (Instr.jf m1 m2).width = 3 ∧
      (Instr.inp m1).width = 2 ∧ (Instr.out m1).width = 2 ∧ (Instr.arb m1).width = 2

/-- R151, R23: a step that changes RB ran an ARB. That no step changes the parameters of R5, R6, R8 and R9 is the model's
clause: holding them as data in State.cfg is its choice (log 1). -/
def Obligations.RelativeBaseIsWrittenOnlyByArb : Prop :=
  ∀ s t : State, step s = .next t → t.cfg = s.cfg ∧ (t.rb ≠ s.rb → ∃ m, fetch s = .ok (.arb m))

/-- R48, R53: a step that changes MEM ran ADD, MUL, LT, EQ or IN, and changed the word at that instruction's destination
only. -/
def Obligations.MemoryIsWrittenOnlyThroughDestinations : Prop :=
  ∀ s t : State, step s = .next t → t.mem ≠ s.mem →
    (∃ m1 m2 m3, (fetch s = .ok (.add m1 m2 m3) ∨ fetch s = .ok (.mul m1 m2 m3) ∨ fetch s = .ok (.lt m1 m2 m3) ∨
        fetch s = .ok (.eq m1 m2 m3)) ∧
      ∀ a : Nat, (a : Int) ≠ s.destination 3 m3 → Memory.read t.mem a = Memory.read s.mem a) ∨
    (∃ m1, fetch s = .ok (.inp m1) ∧
      ∀ a : Nat, (a : Int) ≠ s.destination 1 m1 → Memory.read t.mem a = Memory.read s.mem a)

/-- R99, R160: from RUNNING a step halts exactly on HLT and suspends exactly on an IN with an empty queue and a valid
destination; each of the three ends writes its status registers and nothing else, and a step that stays RUNNING writes
none of them. That the destination must be valid too, because it is checked before the queue is looked at (R140, R163),
is a choice: the spec's decision D10 (log 15). -/
def Obligations.StatusTransitionsOfAStep : Prop :=
  ∀ s t : State, step s = .next t →
    (t.status = .halted ↔ fetch s = .ok .hlt) ∧
    (t.status = .suspended ↔ ∃ m, fetch s = .ok (.inp m) ∧ s.input = .queue [] ∧ s.resolvesDest m) ∧
    (t.status = .halted → t = { s with status := .halted, curInsn := some .hlt }) ∧
    (t.status = .suspended → ∃ m, fetch s = .ok (.inp m) ∧
      t = { s with status := .suspended, curInsn := some (.inp m) }) ∧
    (t.status = .faulted → ∃ k n, t = s.faultedWith k n) ∧
    (t.status = .running → t.faultKind = s.faultKind ∧ t.faultInfo = s.faultInfo ∧ t.curInsn = s.curInsn)

/-- R31, R30 (D15): OUTLOG and LAST_OUT change only by an OUT, which appends one word and makes it the last output. -/
def Obligations.OutputLogGrowsOnlyByOut : Prop :=
  ∀ s t : State, step s = .next t →
    (t.outlog = s.outlog ∧ t.lastOut = s.lastOut) ∨
    ∃ m, fetch s = .ok (.out m) ∧ t.outlog = s.outlog ++ [s.value m (s.literal 1)] ∧
      t.lastOut = some (s.value m (s.literal 1))

/-- R28, R29: INQ changes only by an IN that takes its first word, and no step changes INPUT_MODE. -/
def Obligations.InputQueueIsConsumedFromTheFront : Prop :=
  ∀ s t : State, step s = .next t →
    t.input = s.input ∨ ∃ m v q, fetch s = .ok (.inp m) ∧ s.input = .queue (v :: q) ∧ t.input = .queue q

/-- R26, R31, R34: no step reads CUR_INSN, LAST_OUT, OUTLOG, FAULT_KIND or FAULT_INFO: with any other contents of them
the step leaves the same parameters, MEM, PC, RB, input and STATUS, and OUTLOG grows by the same words. -/
def Obligations.StepReadsNoObservationRegister : Prop :=
  ∀ (s t : State) (lo : Option Word) (ol : List Word) (fk : Option FaultKind) (fi : Option Int) (ci : Option Instr),
    step s = .next t →
    ∃ t', step { s with lastOut := lo, outlog := ol, faultKind := fk, faultInfo := fi, curInsn := ci } = .next t' ∧
      t'.cfg = t.cfg ∧ t'.mem = t.mem ∧ t'.pc = t.pc ∧ t'.rb = t.rb ∧ t'.input = t.input ∧ t'.status = t.status ∧
      ∃ out, t.outlog = s.outlog ++ out ∧ t'.outlog = ol ++ out

/-- The invariant (R24, R25, R26, R30, R31, R161, log 11): every step keeps it, from every state that has it. -/
def Obligations.StepKeepsTheInvariant : Prop :=
  ∀ s t : State, s.Inv → step s = .next t → t.Inv

/-- The invariant holds right after reset. -/
def Obligations.ResetMeetsTheInvariant : Prop := State.reset.Inv

/-- START makes the invariant hold on every machine whose parameters meet R5; RESUME and SUPPLY keep it (R35). Its clauses
about the list of cells are about the model's own representation of MEM (log 11). -/
def Obligations.HostActionsKeepTheInvariant : Prop :=
  (∀ cfg image inputs off t, cfg.wf = true → firstStart cfg image inputs off = .next t → t.Inv) ∧
  (∀ s image inputs off t, s.Inv → hostStart image inputs off s = .next t → t.Inv) ∧
  (∀ s more t, s.Inv → hostResume more s = .next t → t.Inv) ∧
  (∀ s v t, s.Inv → hostSupply v s = .next t → t.Inv)

/-! ## The host's actions -/

/-- R181, R180, R38, R49 (D11, D12, D15, D16, D21, D27): START is refused for an image longer than `C`, and otherwise
leaves every register at its start value, the image at address 0 upward and 0 beyond it. R35 and D20 say only when START
is allowed: that a START while RUNNING answers the refusal startWhileRunning is the model's choice (log 19), and that the
loaded memory is in the canonical form is about the model's own representation (log 11). -/
def Obligations.StartLoadsTheImageAndTheRegisters : Prop :=
  ∀ (cfg : Config) (image : List Word) (inputs : Option (List Word)) (off : Word),
    (cfg.capacity < image.length → firstStart cfg image inputs off = .refused .imageTooLong) ∧
    (image.length ≤ cfg.capacity → ∃ t, firstStart cfg image inputs off = .next t ∧
      (∀ a : Nat, Memory.read t.mem a = image.getD a 0) ∧ t.mem.wf = true ∧ t.cfg = cfg ∧ t.pc = off ∧
      t.rb = cfg.rbInit ∧ t.inq = inputs ∧ t.lastOutValid = false ∧ t.outlog = [] ∧ t.status = .running ∧
      t.faultKind = none ∧ t.faultInfo = none ∧ t.curInsn = none) ∧
    ∀ s : State, s.cfg = cfg →
      (s.status = .running → hostStart image inputs off s = .refused .startWhileRunning) ∧
      (s.status ≠ .running → hostStart image inputs off s = firstStart cfg image inputs off)

/-- R183, R188, R36 (D13, D20): RESUME applies to a SUSPENDED or HALTED block in queue mode only, appends its words to
the back of INQ, sets RUNNING and keeps everything else; a suspended IN resumed with no word suspends again in the same
state. That a RESUME which is not allowed answers the refusal resumeNotAllowed is the model's choice (log 19), since D20
leaves such a host unsaid. -/
def Obligations.ResumeAppendsInputAndKeepsTheRest : Prop :=
  ∀ (s : State) (more : List Word),
    (s.status = .suspended ∨ s.status = .halted → ∀ q, s.input = .queue q →
      hostResume more s = .next { s with input := .queue (q ++ more), status := .running }) ∧
    (s.status = .running ∨ s.status = .faulted ∨ s.input = .blocking →
      hostResume more s = .refused .resumeNotAllowed) ∧
    (s.Inv → s.status = .suspended → ∃ u, hostResume [] s = .next u ∧ step u = .next s)

/-- R35, R33, R29: READ returns the registers as they stand when STATUS is not RUNNING. Two clauses are the model's: the
token it returns in FAULTED, since R33 defines the token for SUSPENDED and HALTED only (log 18), and the refusal
readWhileRunning of a READ while RUNNING (log 19). -/
def Obligations.ReadReturnsTheRegisters : Prop :=
  ∀ s : State,
    (s.status = .running → hostRead s = .error .readWhileRunning) ∧
    (s.status ≠ .running → ∃ r, hostRead s = .ok r ∧ r.status = s.status ∧ r.faultKind = s.faultKind ∧
      r.faultInfo = s.faultInfo ∧ r.token = ⟨s.lastOut, s.pc, s.curInsn⟩ ∧ r.rb = s.rb ∧ r.mem = s.mem ∧
      r.outlog = s.outlog ∧ (∀ q, s.input = .queue q → r.inq = some q) ∧ (s.input = .blocking → r.inq = none))

/-- R35, R32: SUPPLY applies exactly when the block is RUNNING in blocking mode at an IN whose destination resolves. That
a SUPPLY which is not allowed answers the refusal supplyNotAllowed is the model's choice (log 19). -/
def Obligations.SupplyNeedsAWaitingInput : Prop :=
  ∀ (s : State) (v : Word),
    ((∃ t, hostSupply v s = .next t) ↔
      s.status = .running ∧ s.input = .blocking ∧ ∃ m, fetch s = .ok (.inp m) ∧ s.resolvesDest m) ∧
    ((∀ t, hostSupply v s ≠ .next t) → hostSupply v s = .refused .supplyNotAllowed)

/-- R103 (D13; CUR_INSN after a fault excepted, log 17): from any running state in queue mode, START's included, a run
that suspends and is resumed with `more` reaches the same ends as the run that had `more` behind its input all along,
and no other. -/
def Obligations.ResumeEqualsUninterruptedRun : Prop :=
  ∀ (s S R : State) (q more : List Word), s.status = .running → s.input = .queue q →
    Reaches s S → S.status = .suspended → hostResume more S = .next R →
    (∀ T, Reaches R T → ∃ T', Reaches { s with input := .queue (q ++ more) } T' ∧ SameEnd T T') ∧
    (∀ T', Reaches { s with input := .queue (q ++ more) } T' → ∃ T, Reaches R T ∧ SameEnd T T')

/-- R46, R5 (D1): a step that does not fault does the same on a machine with a larger capacity. -/
def Obligations.LargerCapacityKeepsFaultFreeSteps : Prop :=
  ∀ (s t : State) (c : Nat), s.cfg.capacity ≤ c → step s = .next t → t.status ≠ .faulted →
    step { s with cfg := { s.cfg with capacity := c } } = .next { t with cfg := { t.cfg with capacity := c } }

/-- The model's own interface (log 7, log 22): after `withFetchWord` the words of a table row stand at PC and behind it,
and the very next step runs the instruction the decoder reads from them. -/
def Obligations.PlacedTableWordRunsNext : Prop :=
  ∀ (s : State) (nbits w : Nat) (i : Instr), s.cfg.strictHighDigits = false → s.mem.wf = true → s.valid s.pc.toInt →
    decodeTableWord nbits w = some i →
    step (s.withFetchWord nbits w) = exec i (s.withFetchWord nbits w) ∧
    (∀ k, k ≤ 3 → Memory.read (s.withFetchWord nbits w).mem (s.pc.toInt.toNat + k) = tableWord nbits w k) ∧
    s.withFetchWord nbits w = { s with mem := (s.withFetchWord nbits w).mem, status := .running }
end

