-- ==== Sys2Proof/Laws/State.lean ====
section
/-! SUPPORT. One lemma per field per update of the state, true by `rfl`. -/

namespace Sys2Proof.Machine

open Sys2Proof

variable (s : State)

@[simp] theorem State.setPc_cfg (t : Word) : (s.setPc t).cfg = s.cfg := rfl
@[simp] theorem State.setPc_mem (t : Word) : (s.setPc t).mem = s.mem := rfl
@[simp] theorem State.setPc_pc (t : Word) : (s.setPc t).pc = t := rfl
@[simp] theorem State.setPc_rb (t : Word) : (s.setPc t).rb = s.rb := rfl
@[simp] theorem State.setPc_input (t : Word) : (s.setPc t).input = s.input := rfl
@[simp] theorem State.setPc_lastOut (t : Word) : (s.setPc t).lastOut = s.lastOut := rfl
@[simp] theorem State.setPc_outlog (t : Word) : (s.setPc t).outlog = s.outlog := rfl
@[simp] theorem State.setPc_status (t : Word) : (s.setPc t).status = s.status := rfl
@[simp] theorem State.setPc_faultKind (t : Word) : (s.setPc t).faultKind = s.faultKind := rfl
@[simp] theorem State.setPc_faultInfo (t : Word) : (s.setPc t).faultInfo = s.faultInfo := rfl
@[simp] theorem State.setPc_curInsn (t : Word) : (s.setPc t).curInsn = s.curInsn := rfl

@[simp] theorem State.advance_cfg (n : Nat) : (s.advance n).cfg = s.cfg := rfl
@[simp] theorem State.advance_mem (n : Nat) : (s.advance n).mem = s.mem := rfl
@[simp] theorem State.advance_pc (n : Nat) : (s.advance n).pc = BitVec.ofInt 64 (s.pc.toInt + n) := rfl
@[simp] theorem State.advance_rb (n : Nat) : (s.advance n).rb = s.rb := rfl
@[simp] theorem State.advance_input (n : Nat) : (s.advance n).input = s.input := rfl
@[simp] theorem State.advance_lastOut (n : Nat) : (s.advance n).lastOut = s.lastOut := rfl
@[simp] theorem State.advance_outlog (n : Nat) : (s.advance n).outlog = s.outlog := rfl
@[simp] theorem State.advance_status (n : Nat) : (s.advance n).status = s.status := rfl
@[simp] theorem State.advance_faultKind (n : Nat) : (s.advance n).faultKind = s.faultKind := rfl
@[simp] theorem State.advance_faultInfo (n : Nat) : (s.advance n).faultInfo = s.faultInfo := rfl
@[simp] theorem State.advance_curInsn (n : Nat) : (s.advance n).curInsn = s.curInsn := rfl

@[simp] theorem State.setRb_cfg (v : Word) : (s.setRb v).cfg = s.cfg := rfl
@[simp] theorem State.setRb_mem (v : Word) : (s.setRb v).mem = s.mem := rfl
@[simp] theorem State.setRb_pc (v : Word) : (s.setRb v).pc = s.pc := rfl
@[simp] theorem State.setRb_rb (v : Word) : (s.setRb v).rb = v := rfl
@[simp] theorem State.setRb_input (v : Word) : (s.setRb v).input = s.input := rfl
@[simp] theorem State.setRb_lastOut (v : Word) : (s.setRb v).lastOut = s.lastOut := rfl
@[simp] theorem State.setRb_outlog (v : Word) : (s.setRb v).outlog = s.outlog := rfl
@[simp] theorem State.setRb_status (v : Word) : (s.setRb v).status = s.status := rfl
@[simp] theorem State.setRb_faultKind (v : Word) : (s.setRb v).faultKind = s.faultKind := rfl
@[simp] theorem State.setRb_faultInfo (v : Word) : (s.setRb v).faultInfo = s.faultInfo := rfl
@[simp] theorem State.setRb_curInsn (v : Word) : (s.setRb v).curInsn = s.curInsn := rfl

@[simp] theorem State.emit_cfg (x : Word) : (s.emit x).cfg = s.cfg := rfl
@[simp] theorem State.emit_mem (x : Word) : (s.emit x).mem = s.mem := rfl
@[simp] theorem State.emit_pc (x : Word) : (s.emit x).pc = s.pc := rfl
@[simp] theorem State.emit_rb (x : Word) : (s.emit x).rb = s.rb := rfl
@[simp] theorem State.emit_input (x : Word) : (s.emit x).input = s.input := rfl
@[simp] theorem State.emit_lastOut (x : Word) : (s.emit x).lastOut = some x := rfl
@[simp] theorem State.emit_outlog (x : Word) : (s.emit x).outlog = s.outlog ++ [x] := rfl
@[simp] theorem State.emit_status (x : Word) : (s.emit x).status = s.status := rfl
@[simp] theorem State.emit_faultKind (x : Word) : (s.emit x).faultKind = s.faultKind := rfl
@[simp] theorem State.emit_faultInfo (x : Word) : (s.emit x).faultInfo = s.faultInfo := rfl
@[simp] theorem State.emit_curInsn (x : Word) : (s.emit x).curInsn = s.curInsn := rfl

@[simp] theorem State.setQueue_cfg (q : List Word) : (s.setQueue q).cfg = s.cfg := rfl
@[simp] theorem State.setQueue_mem (q : List Word) : (s.setQueue q).mem = s.mem := rfl
@[simp] theorem State.setQueue_pc (q : List Word) : (s.setQueue q).pc = s.pc := rfl
@[simp] theorem State.setQueue_rb (q : List Word) : (s.setQueue q).rb = s.rb := rfl
@[simp] theorem State.setQueue_input (q : List Word) : (s.setQueue q).input = .queue q := rfl
@[simp] theorem State.setQueue_lastOut (q : List Word) : (s.setQueue q).lastOut = s.lastOut := rfl
@[simp] theorem State.setQueue_outlog (q : List Word) : (s.setQueue q).outlog = s.outlog := rfl
@[simp] theorem State.setQueue_status (q : List Word) : (s.setQueue q).status = s.status := rfl
@[simp] theorem State.setQueue_faultKind (q : List Word) : (s.setQueue q).faultKind = s.faultKind := rfl
@[simp] theorem State.setQueue_faultInfo (q : List Word) : (s.setQueue q).faultInfo = s.faultInfo := rfl
@[simp] theorem State.setQueue_curInsn (q : List Word) : (s.setQueue q).curInsn = s.curInsn := rfl

@[simp] theorem State.suspend_cfg (i : Instr) : (s.suspend i).cfg = s.cfg := rfl
@[simp] theorem State.suspend_mem (i : Instr) : (s.suspend i).mem = s.mem := rfl
@[simp] theorem State.suspend_pc (i : Instr) : (s.suspend i).pc = s.pc := rfl
@[simp] theorem State.suspend_rb (i : Instr) : (s.suspend i).rb = s.rb := rfl
@[simp] theorem State.suspend_input (i : Instr) : (s.suspend i).input = s.input := rfl
@[simp] theorem State.suspend_lastOut (i : Instr) : (s.suspend i).lastOut = s.lastOut := rfl
@[simp] theorem State.suspend_outlog (i : Instr) : (s.suspend i).outlog = s.outlog := rfl
@[simp] theorem State.suspend_status (i : Instr) : (s.suspend i).status = .suspended := rfl
@[simp] theorem State.suspend_faultKind (i : Instr) : (s.suspend i).faultKind = s.faultKind := rfl
@[simp] theorem State.suspend_faultInfo (i : Instr) : (s.suspend i).faultInfo = s.faultInfo := rfl
@[simp] theorem State.suspend_curInsn (i : Instr) : (s.suspend i).curInsn = some i := rfl

@[simp] theorem State.halt_cfg : (s.halt).cfg = s.cfg := rfl
@[simp] theorem State.halt_mem : (s.halt).mem = s.mem := rfl
@[simp] theorem State.halt_pc : (s.halt).pc = s.pc := rfl
@[simp] theorem State.halt_rb : (s.halt).rb = s.rb := rfl
@[simp] theorem State.halt_input : (s.halt).input = s.input := rfl
@[simp] theorem State.halt_lastOut : (s.halt).lastOut = s.lastOut := rfl
@[simp] theorem State.halt_outlog : (s.halt).outlog = s.outlog := rfl
@[simp] theorem State.halt_status : (s.halt).status = .halted := rfl
@[simp] theorem State.halt_faultKind : (s.halt).faultKind = s.faultKind := rfl
@[simp] theorem State.halt_faultInfo : (s.halt).faultInfo = s.faultInfo := rfl
@[simp] theorem State.halt_curInsn : (s.halt).curInsn = some .hlt := rfl

@[simp] theorem State.raise_cfg (r : Raised) : (s.raise r).cfg = s.cfg := rfl
@[simp] theorem State.raise_mem (r : Raised) : (s.raise r).mem = s.mem := rfl
@[simp] theorem State.raise_pc (r : Raised) : (s.raise r).pc = s.pc := rfl
@[simp] theorem State.raise_rb (r : Raised) : (s.raise r).rb = s.rb := rfl
@[simp] theorem State.raise_input (r : Raised) : (s.raise r).input = s.input := rfl
@[simp] theorem State.raise_lastOut (r : Raised) : (s.raise r).lastOut = s.lastOut := rfl
@[simp] theorem State.raise_outlog (r : Raised) : (s.raise r).outlog = s.outlog := rfl
@[simp] theorem State.raise_status (r : Raised) : (s.raise r).status = .faulted := rfl
@[simp] theorem State.raise_faultKind (r : Raised) : (s.raise r).faultKind = some r.kind := rfl
@[simp] theorem State.raise_faultInfo (r : Raised) : (s.raise r).faultInfo = some r.info := rfl
@[simp] theorem State.raise_curInsn (r : Raised) : (s.raise r).curInsn = s.curInsn := rfl

end Sys2Proof.Machine
end

