-- ==== Sys2Proof/Laws/Memory.lean ====
section
/-! SUPPORT. Laws of the sparse memory: read after write, the canonical form, loading an image. -/

namespace Sys2Proof.Machine

open Sys2Proof

theorem Memory.wfFrom_cons {lo k : Nat} {w : Word} {m : Memory} :
    Memory.wfFrom lo ((k, w) :: m) = true ↔ lo ≤ k ∧ w ≠ Memory.unlisted ∧ Memory.wfFrom (k + 1) m = true := by
  simp [Memory.wfFrom, and_assoc]

theorem Memory.wfFrom_mono {lo lo' : Nat} (h : lo ≤ lo') {m : Memory} (hm : Memory.wfFrom lo' m = true) :
    Memory.wfFrom lo m = true := by
  cases m with
  | nil => rfl
  | cons cell m =>
    obtain ⟨k, w⟩ := cell
    rw [Memory.wfFrom_cons] at hm ⊢
    exact ⟨h.trans hm.1, hm.2⟩

/-- Below its first possible index a canonical memory lists nothing. -/
theorem Memory.read_below {lo : Nat} {m : Memory} (hm : Memory.wfFrom lo m = true) {a : Nat} (h : a < lo) :
    Memory.read m a = Memory.unlisted := by
  induction m generalizing lo with
  | nil => rfl
  | cons cell m ih =>
    obtain ⟨k, w⟩ := cell
    rw [Memory.wfFrom_cons] at hm
    rw [Memory.read, if_neg (by omega)]
    exact ih hm.2.2 (by omega)

/-- A write leaves every other word alone, canonical form or not. -/
theorem Memory.read_write_ne (m : Memory) {a b : Nat} (v : Word) (h : b ≠ a) :
    Memory.read (Memory.write m a v) b = Memory.read m b := by
  induction m with
  | nil => rw [Memory.write]; split <;> simp [Memory.read, h.symm]
  | cons cell m ih =>
    obtain ⟨k, w⟩ := cell
    rw [Memory.write]
    split
    · split <;> simp [Memory.read, h.symm]
    · split
      · subst k; split <;> simp [Memory.read, h.symm]
      · simp [Memory.read, ih]

theorem Memory.read_write_self_from {lo : Nat} {m : Memory} (hm : Memory.wfFrom lo m = true) (a : Nat) (v : Word) :
    Memory.read (Memory.write m a v) a = v := by
  induction m generalizing lo with
  | nil => rw [Memory.write]; split <;> simp_all [Memory.read]
  | cons cell m ih =>
    obtain ⟨k, w⟩ := cell
    rw [Memory.wfFrom_cons] at hm
    rw [Memory.write]
    split
    · split
      · rename_i hv
        rw [Memory.read, if_neg (by omega), hv, Memory.read_below hm.2.2 (by omega)]
      · simp [Memory.read]
    · split
      · subst k
        split
        · rename_i hv
          rw [hv, Memory.read_below hm.2.2 (by omega)]
        · simp [Memory.read]
      · rw [Memory.read, if_neg (by omega), ih hm.2.2]

/-- Read after write, in a canonical memory. -/
theorem Memory.read_write {m : Memory} (hm : m.wf = true) (a b : Nat) (v : Word) :
    Memory.read (Memory.write m a v) b = if b = a then v else Memory.read m b := by
  split
  · subst b; exact Memory.read_write_self_from hm a v
  · exact Memory.read_write_ne m v ‹_›

theorem Memory.wfFrom_write {lo : Nat} {m : Memory} (hm : Memory.wfFrom lo m = true) {a : Nat} (h : lo ≤ a) (v : Word) :
    Memory.wfFrom lo (Memory.write m a v) = true := by
  induction m generalizing lo with
  | nil => rw [Memory.write]; split <;> simp_all [Memory.wfFrom]
  | cons cell m ih =>
    obtain ⟨k, w⟩ := cell
    have hm' := Memory.wfFrom_cons.1 hm
    rw [Memory.write]
    split
    · split
      · exact hm
      · rw [Memory.wfFrom_cons, Memory.wfFrom_cons]
        exact ⟨h, ‹_›, by omega, hm'.2⟩
    · split
      · subst k
        split
        · exact Memory.wfFrom_mono (by omega) hm'.2.2
        · rw [Memory.wfFrom_cons]
          exact ⟨h, ‹_›, hm'.2.2⟩
      · rw [Memory.wfFrom_cons]
        exact ⟨hm'.1, hm'.2.1, ih hm'.2.2 (by omega)⟩

/-- A write keeps the canonical form. -/
theorem Memory.wf_write {m : Memory} (hm : m.wf = true) (a : Nat) (v : Word) : (Memory.write m a v).wf = true :=
  Memory.wfFrom_write hm (Nat.zero_le a) v

/-- A write below `c` lists nothing at or beyond `c`. -/
theorem Memory.below_write {c : Nat} {m : Memory} (hm : m.below c = true) {a : Nat} (h : a < c) (v : Word) :
    (Memory.write m a v).below c = true := by
  induction m with
  | nil => rw [Memory.write]; split <;> simp [Memory.below, h]
  | cons cell m ih =>
    obtain ⟨k, w⟩ := cell
    simp only [Memory.below, List.all_cons, Bool.and_eq_true, decide_eq_true_eq] at hm ih
    rw [Memory.write]
    split
    · split <;> simp only [Memory.below, List.all_cons, Bool.and_eq_true, decide_eq_true_eq] <;> tauto
    · split
      · split <;> simp only [Memory.below, List.all_cons, Bool.and_eq_true, decide_eq_true_eq] <;> tauto
      · simp only [Memory.below, List.all_cons, Bool.and_eq_true, decide_eq_true_eq]
        exact ⟨hm.1, ih hm.2⟩

/-- A canonical memory reads as nothing at or beyond its bound. -/
theorem Memory.read_beyond {c : Nat} {m : Memory} (hm : m.below c = true) {a : Nat} (h : c ≤ a) :
    Memory.read m a = Memory.unlisted := by
  induction m with
  | nil => rfl
  | cons cell m ih =>
    obtain ⟨k, w⟩ := cell
    simp only [Memory.below, List.all_cons, Bool.and_eq_true, decide_eq_true_eq] at hm ih
    rw [Memory.read, if_neg (by omega), ih hm.2]

theorem Memory.wfFrom_loadFrom (a : Nat) (image : List Word) : Memory.wfFrom a (Memory.loadFrom a image) = true := by
  induction image generalizing a with
  | nil => rfl
  | cons w rest ih =>
    rw [Memory.loadFrom]
    split
    · exact Memory.wfFrom_mono (Nat.le_succ a) (ih (a + 1))
    · rw [Memory.wfFrom_cons]
      exact ⟨le_rfl, ‹_›, ih (a + 1)⟩

theorem Memory.read_loadFrom (a : Nat) (image : List Word) (i : Nat) :
    Memory.read (Memory.loadFrom a image) (a + i) = image.getD i Memory.unlisted := by
  induction image generalizing a i with
  | nil => rfl
  | cons w rest ih =>
    rw [Memory.loadFrom]
    cases i with
    | zero =>
      split
      · rename_i hw
        rw [Memory.read_below (Memory.wfFrom_loadFrom (a + 1) rest) (by omega)]
        simp [hw]
      · simp [Memory.read]
    | succ i =>
      have e : a + (i + 1) = a + 1 + i := by omega
      split
      · rw [e, ih]; simp
      · rw [Memory.read, if_neg (by omega), e, ih]; simp

theorem Memory.below_loadFrom {c : Nat} (a : Nat) (image : List Word) (h : a + image.length ≤ c) :
    (Memory.loadFrom a image).below c = true := by
  induction image generalizing a with
  | nil => rfl
  | cons w rest ih =>
    simp only [List.length_cons] at h
    have ih' := ih (a + 1) (by omega)
    rw [Memory.loadFrom]
    split
    · exact ih'
    · simp only [Memory.below, List.all_cons, Bool.and_eq_true, decide_eq_true_eq] at ih' ⊢
      exact ⟨by omega, ih'⟩

/-- Memory right after reset is in the canonical form. -/
theorem Memory.wf_reset : State.reset.mem.wf = true := rfl

end Sys2Proof.Machine
end

