-- ==== Sys2Proof/Laws/Ops.lean ====
section
/-! SUPPORT. One lemma per shared operation: exactly when it answers, and with what. Callers cite these and unfold
nothing. -/

namespace Sys2Proof.Machine

open Sys2Proof

/-- A sequence of two computations succeeds exactly when both do. -/
theorem bind_eq_ok {α β : Type} {x : Except Raised α} {f : α → Except Raised β} {b : β} :
    (x >>= f) = .ok b ↔ ∃ a, x = .ok a ∧ f a = .ok b := by
  cases x with
  | error e => constructor <;> rintro ⟨⟩; simp_all
  | ok a => exact ⟨fun h => ⟨a, rfl, h⟩, fun ⟨_, h, h'⟩ => by cases h; exact h'⟩

/-- A sequence of two computations fails in the first, or in the second after the first. -/
theorem bind_eq_error {α β : Type} {x : Except Raised α} {f : α → Except Raised β} {r : Raised} :
    (x >>= f) = .error r ↔ x = .error r ∨ ∃ a, x = .ok a ∧ f a = .error r := by
  cases x with
  | error e =>
    constructor
    · intro h; cases h; exact .inl rfl
    · rintro (h | ⟨_, h, _⟩) <;> cases h; rfl
  | ok a =>
    constructor
    · intro h; exact .inr ⟨a, rfl, h⟩
    · rintro (h | ⟨_, h, h'⟩) <;> cases h; exact h'

/-- A check that either answers or raises answers exactly when its condition holds. -/
theorem ite_eq_ok {α : Type} {p : Prop} [Decidable p] {x y : α} {r : Raised} :
    (if p then Except.ok x else .error r) = .ok y ↔ p ∧ y = x := by
  by_cases h : p
  · rw [if_pos h]; exact ⟨fun e => by cases e; exact ⟨h, rfl⟩, fun e => by rw [e.2]⟩
  · rw [if_neg h]; exact ⟨fun e => (nomatch e), fun e => absurd e.1 h⟩

/-- A check that either answers or raises raises exactly when its condition fails. -/
theorem ite_eq_error {α : Type} {p : Prop} [Decidable p] {x : α} {r r' : Raised} :
    (if p then Except.ok x else .error r) = .error r' ↔ ¬p ∧ r' = r := by
  by_cases h : p
  · rw [if_pos h]; exact ⟨fun e => (nomatch e), fun e => absurd h e.1⟩
  · rw [if_neg h]; exact ⟨fun e => by cases e; exact ⟨h, rfl⟩, fun e => by rw [e.2]⟩

@[simp] theorem ok_bind {α β : Type} (a : α) (f : α → Except Raised β) : (Except.ok a >>= f) = f a := rfl

@[simp] theorem error_bind {α β : Type} (r : Raised) (f : α → Except Raised β) :
    ((Except.error r : Except Raised α) >>= f) = .error r := rfl

@[simp] theorem pure_eq_ok {α : Type} (a : α) : (pure a : Except Raised α) = .ok a := rfl

/-- A step ends in the state its pseudocode left or in the fault it raised; it always answers a next state. -/
theorem finish_eq_next {s t : State} {x : Except Raised State} :
    finish s x = .next t ↔ x = .ok t ∨ ∃ r, x = .error r ∧ t = s.raise r := by
  cases x with
  | ok u => simp [finish]
  | error r => simp [finish, eq_comm]

@[simp] theorem finish_ok (s t : State) : finish s (.ok t) = .next t := rfl
@[simp] theorem finish_error (s : State) (r : Raised) : finish s (.error r) = .next (s.raise r) := rfl

theorem raise_eq_faultedWith (s : State) (r : Raised) : s.raise r = s.faultedWith r.kind r.info := rfl

theorem memRead_of_valid {s : State} {a : Int} (h : s.valid a) : memRead a s = .ok (s.word a) := if_pos h
theorem memRead_of_not_valid {s : State} {a : Int} (h : ¬s.valid a) : memRead a s = .error ⟨.address, a⟩ := if_neg h

theorem memRead_eq_ok {s : State} {a : Int} {w : Word} : memRead a s = .ok w ↔ s.valid a ∧ w = s.word a := ite_eq_ok

theorem memRead_eq_error {s : State} {a : Int} {r : Raised} :
    memRead a s = .error r ↔ ¬s.valid a ∧ r = ⟨.address, a⟩ := ite_eq_error

theorem memWrite_eq_ok {s t : State} {a : Int} {v : Word} :
    memWrite a v s = .ok t ↔ s.valid a ∧ t = { s with mem := Memory.write s.mem a.toNat v } := ite_eq_ok

theorem memWrite_of_valid {s : State} {a : Int} (v : Word) (h : s.valid a) :
    memWrite a v s = .ok { s with mem := Memory.write s.mem a.toNat v } := if_pos h

theorem lit_of_valid {s : State} {i : Nat} (h : s.valid (s.pc.toInt + i)) : lit i s = .ok (s.literal i) :=
  memRead_of_valid h

theorem lit_of_not_valid {s : State} {i : Nat} (h : ¬s.valid (s.pc.toInt + i)) :
    lit i s = .error ⟨.address, s.pc.toInt + i⟩ := memRead_of_not_valid h

theorem lit_eq_ok {s : State} {i : Nat} {w : Word} :
    lit i s = .ok w ↔ s.valid (s.pc.toInt + i) ∧ w = s.literal i := memRead_eq_ok

theorem readop_of_readable {s : State} {m : Mode} {l : Word} (h : s.readable m l) :
    readop m l s = .ok (s.value m l) := by
  cases m with
  | position => exact memRead_of_valid (h.resolve_left nofun)
  | immediate => rfl
  | relative => exact memRead_of_valid (h.resolve_left nofun)

theorem readop_of_not_readable {s : State} {m : Mode} {l : Word} (h : ¬s.readable m l) :
    readop m l s = .error ⟨.address, addrOf m l s⟩ := by
  rw [State.readable, not_or] at h
  cases m with
  | position => exact memRead_of_not_valid h.2
  | immediate => exact absurd rfl h.1
  | relative => exact memRead_of_not_valid h.2

theorem readop_eq_ok {s : State} {m : Mode} {l x : Word} :
    readop m l s = .ok x ↔ s.readable m l ∧ x = s.value m l := by
  by_cases h : s.readable m l
  · rw [readop_of_readable h]; simp only [Except.ok.injEq, h, true_and, eq_comm]
  · rw [readop_of_not_readable h]; simp only [reduceCtorEq, h, false_and]

theorem dest_eq_ok {s : State} {m : Mode} {l : Word} {d : Int} :
    dest m l s = .ok d ↔ s.valid (addrOf m l s) ∧ d = addrOf m l s := ite_eq_ok

theorem dest_of_valid {s : State} {m : Mode} {l : Word} (h : s.valid (addrOf m l s)) :
    dest m l s = .ok (addrOf m l s) := if_pos h

theorem dest_of_not_valid {s : State} {m : Mode} {l : Word} (h : ¬s.valid (addrOf m l s)) :
    dest m l s = .error ⟨.address, addrOf m l s⟩ := if_neg h

theorem checkDest_of_isDest {m : Mode} (i : Instr) (h : m.isDest = true) : checkDest m i = .ok () := if_pos h

theorem checkDest_eq_ok {m : Mode} {i : Instr} {u : Unit} : checkDest m i = .ok u ↔ m.isDest = true := by
  rw [checkDest, checkDestMode, ite_eq_ok]; simp

/-- The exact integer result fits: `wr64` gives it whatever the policy. -/
theorem wr64_of_in64 {p : OverflowPolicy} {op : Nat} {v : Int} (h : in64 v) : wr64 p op v = .ok (BitVec.ofInt 64 v) :=
  if_pos h

theorem wr64_fault {op : Nat} {v : Int} (h : ¬in64 v) : wr64 .fault op v = .error ⟨.overflow, op⟩ := if_neg h

theorem wr64_wrap {op : Nat} {v : Int} (h : ¬in64 v) : wr64 .wrap op v = .ok (BitVec.ofInt 64 (wrap64 v)) := if_neg h

/-- The residue is in INT64. -/
theorem in64_wrap64 (v : Int) : in64 (wrap64 v) := by
  unfold wrap64
  rw [Int.fdiv_eq_ediv_of_nonneg _ (by decide)]
  unfold in64
  omega

/-- A value that fits is its own residue. -/
theorem wrap64_of_in64 {v : Int} (h : in64 v) : wrap64 v = v := by
  unfold wrap64
  rw [Int.fdiv_eq_ediv_of_nonneg _ (by decide)]
  unfold in64 at h
  omega

theorem toInt_ofInt_of_in64 {v : Int} (h : in64 v) : (BitVec.ofInt 64 v).toInt = v := by
  unfold in64 at h
  rw [BitVec.toInt_ofInt, Int.bmod_eq_of_le] <;> omega

/-- Every word is a value of INT64. -/
theorem toInt_in64 (w : Word) : in64 w.toInt := by
  have h1 := BitVec.le_toInt w
  have h2 := BitVec.toInt_lt (x := w)
  unfold in64
  omega

end Sys2Proof.Machine
end

