-- ==== Sys2Proof/Laws/Shapes.lean ====
section
/-! SUPPORT. The shared instruction shapes: exactly when each completes and in what state, and which faults each raises. -/

namespace Sys2Proof.Machine

open Sys2Proof

/-- The state a completed store leaves: one word written, PC moved on. -/
def State.stored (s : State) (d : Int) (v : Word) (n : Nat) : State :=
  State.advance n { s with mem := Memory.write s.mem d.toNat v }

section stored

variable (s : State) (d : Int) (v : Word) (n : Nat)

@[simp] theorem State.stored_cfg : (s.stored d v n).cfg = s.cfg := rfl
@[simp] theorem State.stored_mem : (s.stored d v n).mem = Memory.write s.mem d.toNat v := rfl
@[simp] theorem State.stored_pc : (s.stored d v n).pc = BitVec.ofInt 64 (s.pc.toInt + n) := rfl
@[simp] theorem State.stored_rb : (s.stored d v n).rb = s.rb := rfl
@[simp] theorem State.stored_input : (s.stored d v n).input = s.input := rfl
@[simp] theorem State.stored_lastOut : (s.stored d v n).lastOut = s.lastOut := rfl
@[simp] theorem State.stored_outlog : (s.stored d v n).outlog = s.outlog := rfl
@[simp] theorem State.stored_status : (s.stored d v n).status = s.status := rfl
@[simp] theorem State.stored_faultKind : (s.stored d v n).faultKind = s.faultKind := rfl
@[simp] theorem State.stored_faultInfo : (s.stored d v n).faultInfo = s.faultInfo := rfl
@[simp] theorem State.stored_curInsn : (s.stored d v n).curInsn = s.curInsn := rfl

end stored

theorem completeInput_eq_ok {s t : State} {d : Int} {v : Word} :
    completeInput d v s = .ok t ↔ s.valid d ∧ t = s.stored d v 2 := by
  simp only [completeInput, bind_eq_ok, memWrite_eq_ok, pure_eq_ok, Except.ok.injEq]
  exact ⟨fun ⟨_, ⟨h, e⟩, e'⟩ => ⟨h, by rw [← e', e]; rfl⟩, fun ⟨h, e⟩ => ⟨_, ⟨h, rfl⟩, e.symm⟩⟩

theorem literal_valid {s : State} {n i : Nat} (h : s.literalsIn n) (h1 : 1 ≤ i) (hn : i ≤ n) :
    s.valid (s.pc.toInt + i) := ⟨by have := h.1; omega, by have := h.2; omega⟩

theorem threeOperand_eq_ok {i : Instr} {m1 m2 m3 : Mode} {f : Int → Int → Except Raised Word} {s t : State} :
    threeOperand i m1 m2 m3 f s = .ok t ↔
      m3.isDest = true ∧ s.literalsIn 3 ∧ s.readable m1 (s.literal 1) ∧ s.readable m2 (s.literal 2) ∧
      s.valid (addrOf m3 (s.literal 3) s) ∧
      ∃ r, f (s.value m1 (s.literal 1)).toInt (s.value m2 (s.literal 2)).toInt = .ok r ∧
        t = s.stored (addrOf m3 (s.literal 3) s) r 4 := by
  simp only [threeOperand, bind_eq_ok, checkDest_eq_ok, lit_eq_ok, readop_eq_ok, dest_eq_ok, memWrite_eq_ok,
    pure_eq_ok, Except.ok.injEq]
  constructor
  · rintro ⟨_, h0, _, ⟨h1, rfl⟩, _, ⟨h2, rfl⟩, _, ⟨h3, rfl⟩, _, ⟨hx, rfl⟩, _, ⟨hy, rfl⟩, _, ⟨hd, rfl⟩, r, hr, _, ⟨_, rfl⟩, rfl⟩
    exact ⟨h0, ⟨h1.1, h3.2⟩, hx, hy, hd, r, hr, rfl⟩
  · rintro ⟨h0, hl, hx, hy, hd, r, hr, rfl⟩
    exact ⟨(), h0, _, ⟨literal_valid hl le_rfl (by decide), rfl⟩, _, ⟨literal_valid hl (by decide) (by decide), rfl⟩,
      _, ⟨literal_valid hl (by decide) le_rfl, rfl⟩, _, ⟨hx, rfl⟩, _, ⟨hy, rfl⟩, _, ⟨hd, rfl⟩, r, hr, _, ⟨hd, rfl⟩, rfl⟩

theorem jumpIf_eq_ok {m1 m2 : Mode} {c : Int → Bool} {s t : State} :
    jumpIf m1 m2 c s = .ok t ↔
      s.literalsIn 2 ∧ s.readable m1 (s.literal 1) ∧ s.readable m2 (s.literal 2) ∧
      t = if c (s.value m1 (s.literal 1)).toInt then s.setPc (s.value m2 (s.literal 2)) else s.advance 3 := by
  simp only [jumpIf, bind_eq_ok, lit_eq_ok, readop_eq_ok, pure_eq_ok, Except.ok.injEq]
  constructor
  · rintro ⟨_, ⟨h1, rfl⟩, _, ⟨h2, rfl⟩, _, ⟨hx, rfl⟩, _, ⟨hy, rfl⟩, rfl⟩
    exact ⟨⟨h1.1, h2.2⟩, hx, hy, rfl⟩
  · rintro ⟨hl, hx, hy, rfl⟩
    exact ⟨_, ⟨literal_valid hl le_rfl (by decide), rfl⟩, _, ⟨literal_valid hl (by decide) le_rfl, rfl⟩,
      _, ⟨hx, rfl⟩, _, ⟨hy, rfl⟩, rfl⟩

theorem oneRead_eq_ok {m1 : Mode} {f : Word → State → Except Raised State} {s t : State} :
    oneRead m1 f s = .ok t ↔
      s.literalsIn 1 ∧ s.readable m1 (s.literal 1) ∧
      ∃ u, f (s.value m1 (s.literal 1)) s = .ok u ∧ t = u.advance 2 := by
  simp only [oneRead, bind_eq_ok, lit_eq_ok, readop_eq_ok, pure_eq_ok, Except.ok.injEq]
  constructor
  · rintro ⟨_, ⟨h1, rfl⟩, _, ⟨hx, rfl⟩, u, hu, rfl⟩
    exact ⟨h1, hx, u, hu, rfl⟩
  · rintro ⟨hl, hx, u, hu, rfl⟩
    exact ⟨_, ⟨hl, rfl⟩, _, ⟨hx, rfl⟩, u, hu, rfl⟩

theorem inputDest_eq_ok {m1 : Mode} {s : State} {d : Int} :
    inputDest m1 s = .ok d ↔
      m1.isDest = true ∧ s.literalsIn 1 ∧ s.valid (addrOf m1 (s.literal 1) s) ∧ d = addrOf m1 (s.literal 1) s := by
  simp only [inputDest, bind_eq_ok, checkDest_eq_ok, lit_eq_ok, dest_eq_ok]
  constructor
  · rintro ⟨_, h0, _, ⟨h1, rfl⟩, hd, rfl⟩
    exact ⟨h0, h1, hd, rfl⟩
  · rintro ⟨h0, hl, hd, rfl⟩
    exact ⟨(), h0, _, ⟨hl, rfl⟩, hd, rfl⟩

theorem fetch_eq_ok {s : State} {i : Instr} :
    fetch s = .ok i ↔ s.valid s.pc.toInt ∧ decode s.cfg.strictHighDigits (s.word s.pc.toInt) = .ok i := by
  simp only [fetch, bind_eq_ok, memRead_eq_ok]
  exact ⟨fun ⟨_, ⟨h, e⟩, h'⟩ => ⟨h, e ▸ h'⟩, fun ⟨h, h'⟩ => ⟨_, ⟨h, rfl⟩, h'⟩⟩

theorem fetch_eq_error {s : State} {r : Raised} :
    fetch s = .error r ↔ (¬s.valid s.pc.toInt ∧ r = ⟨.address, s.pc.toInt⟩) ∨
      s.valid s.pc.toInt ∧ decode s.cfg.strictHighDigits (s.word s.pc.toInt) = .error r := by
  simp only [fetch, bind_eq_error, memRead_eq_error, memRead_eq_ok]
  constructor
  · rintro (h | ⟨_, ⟨h, rfl⟩, h'⟩)
    · exact .inl h
    · exact .inr ⟨h, h'⟩
  · rintro (h | ⟨h, h'⟩)
    · exact .inl h
    · exact .inr ⟨_, ⟨h, rfl⟩, h'⟩

/-- The bounds of an address a step can compute (R161): a PC plus at most 3, or a literal plus RB. -/
theorem addrOf_bounds (m : Mode) (l : Word) (s : State) :
    -18446744073709551616 ≤ addrOf m l s ∧ addrOf m l s ≤ 18446744073709551614 := by
  have h1 := toInt_in64 l
  have h2 := toInt_in64 s.rb
  unfold in64 at h1 h2
  cases m <;> simp only [addrOf] <;> omega

theorem lit_error_legal {s : State} {i : Nat} (hi : i ≤ 3) {r : Raised} (h : lit i s = .error r) :
    legalInfo s.cfg r.kind r.info := by
  obtain ⟨hv, rfl⟩ := memRead_eq_error.1 h
  have h1 := toInt_in64 s.pc
  unfold in64 at h1
  exact ⟨hv, by dsimp only; omega, by dsimp only; omega⟩

theorem readop_error_legal {s : State} {m : Mode} {l : Word} {r : Raised} (h : readop m l s = .error r) :
    legalInfo s.cfg r.kind r.info := by
  by_cases hv : s.readable m l
  · rw [readop_of_readable hv] at h; cases h
  · rw [readop_of_not_readable hv] at h
    cases h
    exact ⟨(not_or.1 hv).2, addrOf_bounds m l s⟩

theorem dest_error_legal {s : State} {m : Mode} {l : Word} {r : Raised} (h : dest m l s = .error r) :
    legalInfo s.cfg r.kind r.info := by
  obtain ⟨hv, rfl⟩ := ite_eq_error.1 h
  exact ⟨hv, addrOf_bounds m l s⟩

theorem memWrite_error_illegal {s : State} {d : Int} {v : Word} {r : Raised} (h : memWrite d v s = .error r) :
    ¬s.valid d := (ite_eq_error.1 h).1

theorem wr64_error_legal {c : Config} {op : Nat} (ho : op = 1 ∨ op = 2 ∨ op = 9) {v : Int} {r : Raised}
    (h : wr64 c.overflow op v = .error r) : legalInfo c r.kind r.info := by
  by_cases hv : in64 v
  · rw [wr64_of_in64 hv] at h; cases h
  · cases hp : c.overflow with
    | fault =>
      rw [hp, wr64_fault hv] at h
      cases h
      exact ⟨hp, by dsimp only; omega⟩
    | wrap => rw [hp, wr64_wrap hv] at h; cases h

/-- The Immediate write destination of a term the decoder never yields: the info is a word DECODE_IMM_DEST names. -/
theorem checkDest_error {m : Mode} {i : Instr} {r : Raised} (h : checkDest m i = .error r) :
    m = .immediate ∧ r = ⟨.decodeImmDest, encodeNat i⟩ := by
  obtain ⟨hm, rfl⟩ := ite_eq_error.1 h
  cases m <;> simp_all [Mode.isDest]

theorem threeOperand_error_legal {i : Instr} {m1 m2 m3 : Mode} {f : Int → Int → Except Raised Word} {s : State}
    {r : Raised} (hi : m3 = .immediate → legalInfo s.cfg .decodeImmDest (encodeNat i))
    (hf : ∀ x y, f x y = .error r → legalInfo s.cfg r.kind r.info)
    (h : threeOperand i m1 m2 m3 f s = .error r) : legalInfo s.cfg r.kind r.info := by
  simp only [threeOperand, bind_eq_error, pure_eq_ok, reduceCtorEq, and_false, exists_false, or_false] at h
  obtain h | ⟨_, -, h | ⟨_, -, h | ⟨_, -, h | ⟨_, -, h | ⟨_, -, h | ⟨_, -, h | ⟨_, hd, h | ⟨_, -, h⟩⟩⟩⟩⟩⟩⟩⟩ := h
  · obtain ⟨hm, rfl⟩ := checkDest_error h
    exact hi hm
  · exact lit_error_legal (by decide) h
  · exact lit_error_legal (by decide) h
  · exact lit_error_legal (by decide) h
  · exact readop_error_legal h
  · exact readop_error_legal h
  · exact dest_error_legal h
  · exact hf _ _ h
  · obtain ⟨hv, rfl⟩ := dest_eq_ok.1 hd
    exact absurd hv (memWrite_error_illegal h)

theorem jumpIf_error_legal {m1 m2 : Mode} {c : Int → Bool} {s : State} {r : Raised}
    (h : jumpIf m1 m2 c s = .error r) : legalInfo s.cfg r.kind r.info := by
  simp only [jumpIf, bind_eq_error, pure_eq_ok, reduceCtorEq, and_false, exists_false, or_false] at h
  obtain h | ⟨_, -, h | ⟨_, -, h | ⟨_, -, h⟩⟩⟩ := h
  · exact lit_error_legal (by decide) h
  · exact lit_error_legal (by decide) h
  · exact readop_error_legal h
  · exact readop_error_legal h

theorem oneRead_error_legal {m1 : Mode} {f : Word → State → Except Raised State} {s : State} {r : Raised}
    (hf : ∀ x, f x s = .error r → legalInfo s.cfg r.kind r.info)
    (h : oneRead m1 f s = .error r) : legalInfo s.cfg r.kind r.info := by
  simp only [oneRead, bind_eq_error, pure_eq_ok, reduceCtorEq, and_false, exists_false, or_false] at h
  obtain h | ⟨_, -, h | ⟨_, -, h⟩⟩ := h
  · exact lit_error_legal (by decide) h
  · exact readop_error_legal h
  · exact hf _ h

theorem inputDest_error_legal {m1 : Mode} {s : State} {r : Raised} (h : inputDest m1 s = .error r) :
    legalInfo s.cfg r.kind r.info := by
  simp only [inputDest, bind_eq_error] at h
  obtain h | ⟨_, -, h | ⟨_, -, h⟩⟩ := h
  · obtain ⟨rfl, rfl⟩ := checkDest_error h
    exact ⟨by decide, by decide, 1, by decide, by decide⟩
  · exact lit_error_legal (by decide) h
  · exact dest_error_legal h

end Sys2Proof.Machine
end

