-- ==== Sys2Proof/Laws/Decode.lean ====
section
/-! SUPPORT. Laws of the decoder: its checks one by one, that it answers well-formed instructions, and which faults it
raises. -/

namespace Sys2Proof.Machine

open Sys2Proof

theorem modeOfDigit_eq_ok {d : Nat} {m : Mode} : modeOfDigit d = .ok m ↔ d = m.code := by
  match d with
  | 0 => cases m <;> simp [modeOfDigit, Mode.code]
  | 1 => cases m <;> simp [modeOfDigit, Mode.code]
  | 2 => cases m <;> simp [modeOfDigit, Mode.code]
  | d + 3 => cases m <;> simp [modeOfDigit, Mode.code]

theorem modeOfDigit_eq_error {d : Nat} {r : Raised} : modeOfDigit d = .error r ↔ 3 ≤ d ∧ ⟨.decodeMode, d⟩ = r := by
  match d with
  | 0 => simp [modeOfDigit]
  | 1 => simp [modeOfDigit]
  | 2 => simp [modeOfDigit]
  | d + 3 => simp [modeOfDigit]

theorem checkDestMode_eq_ok {m : Mode} {w : Int} {u : Unit} : checkDestMode m w = .ok u ↔ m.isDest = true := by
  rw [checkDestMode, ite_eq_ok]; simp

theorem checkDestMode_eq_error {m : Mode} {w : Int} {r : Raised} :
    checkDestMode m w = .error r ↔ m = .immediate ∧ ⟨.decodeImmDest, w⟩ = r := by
  rw [checkDestMode, ite_eq_error]; cases m <;> simp [Mode.isDest, eq_comm]

theorem checkHigh_eq_ok {strict : Bool} {h : Nat} {u : Unit} : checkHigh strict h = .ok u ↔ (strict = true → h = 0) := by
  cases strict <;> by_cases hh : h = 0 <;> simp [checkHigh, hh]

theorem checkHigh_eq_error {strict : Bool} {h : Nat} {r : Raised} :
    checkHigh strict h = .error r ↔ strict = true ∧ h ≠ 0 ∧ ⟨.decodeHighDigit, h⟩ = r := by
  cases strict <;> by_cases hh : h = 0 <;> simp [checkHigh, hh]

theorem decode0_eq_ok {strict : Bool} {n : Nat} {i j : Instr} :
    decode0 strict n i = .ok j ↔ (strict = true → highPart n 0 = 0) ∧ i = j := by
  simp [decode0, bind_eq_ok, checkHigh_eq_ok]

theorem decode1R_eq_ok {strict : Bool} {n : Nat} {mk : Mode → Instr} {j : Instr} :
    decode1R strict n mk = .ok j ↔
      ∃ m1, modeDigit n 1 = m1.code ∧ (strict = true → highPart n 1 = 0) ∧ mk m1 = j := by
  simp [decode1R, bind_eq_ok, checkHigh_eq_ok, modeOfDigit_eq_ok]

theorem decode1W_eq_ok {strict : Bool} {n : Nat} {mk : Mode → Instr} {j : Instr} :
    decode1W strict n mk = .ok j ↔
      ∃ m1, modeDigit n 1 = m1.code ∧ m1.isDest = true ∧ (strict = true → highPart n 1 = 0) ∧ mk m1 = j := by
  simp [decode1W, bind_eq_ok, checkHigh_eq_ok, checkDestMode_eq_ok, modeOfDigit_eq_ok]

theorem decode2RR_eq_ok {strict : Bool} {n : Nat} {mk : Mode → Mode → Instr} {j : Instr} :
    decode2RR strict n mk = .ok j ↔
      ∃ m1, modeDigit n 1 = m1.code ∧ ∃ m2, modeDigit n 2 = m2.code ∧ (strict = true → highPart n 2 = 0) ∧
        mk m1 m2 = j := by
  simp [decode2RR, bind_eq_ok, checkHigh_eq_ok, modeOfDigit_eq_ok]

theorem decode3RRW_eq_ok {strict : Bool} {n : Nat} {mk : Mode → Mode → Mode → Instr} {j : Instr} :
    decode3RRW strict n mk = .ok j ↔
      ∃ m1, modeDigit n 1 = m1.code ∧ ∃ m2, modeDigit n 2 = m2.code ∧ ∃ m3, modeDigit n 3 = m3.code ∧
        m3.isDest = true ∧ (strict = true → highPart n 3 = 0) ∧ mk m1 m2 m3 = j := by
  simp [decode3RRW, bind_eq_ok, checkHigh_eq_ok, checkDestMode_eq_ok, modeOfDigit_eq_ok]

/-- The formats once every mode digit is legal: the destination check, then the high part (R69). -/
theorem decode3RRW_of_codes {strict : Bool} {n : Nat} (mk : Mode → Mode → Mode → Instr) {m1 m2 m3 : Mode}
    (h1 : modeDigit n 1 = m1.code) (h2 : modeDigit n 2 = m2.code) (h3 : modeDigit n 3 = m3.code) :
    decode3RRW strict n mk =
      if m3.isDest then (if strict && highPart n 3 != 0 then .error ⟨.decodeHighDigit, highPart n 3⟩ else .ok (mk m1 m2 m3))
      else .error ⟨.decodeImmDest, n⟩ := by
  rw [decode3RRW, modeOfDigit_eq_ok.2 h1, modeOfDigit_eq_ok.2 h2, modeOfDigit_eq_ok.2 h3]
  simp only [ok_bind, checkDestMode, checkHigh]
  split <;> simp only [ok_bind, error_bind]
  split <;> rfl

theorem decode1W_of_codes {strict : Bool} {n : Nat} (mk : Mode → Instr) {m1 : Mode} (h1 : modeDigit n 1 = m1.code) :
    decode1W strict n mk =
      if m1.isDest then (if strict && highPart n 1 != 0 then .error ⟨.decodeHighDigit, highPart n 1⟩ else .ok (mk m1))
      else .error ⟨.decodeImmDest, n⟩ := by
  rw [decode1W, modeOfDigit_eq_ok.2 h1]
  simp only [ok_bind, checkDestMode, checkHigh]
  split <;> simp only [ok_bind, error_bind]
  split <;> rfl

theorem decode1R_of_codes {strict : Bool} {n : Nat} (mk : Mode → Instr) {m1 : Mode} (h1 : modeDigit n 1 = m1.code) :
    decode1R strict n mk =
      if strict && highPart n 1 != 0 then .error ⟨.decodeHighDigit, highPart n 1⟩ else .ok (mk m1) := by
  rw [decode1R, modeOfDigit_eq_ok.2 h1]
  simp only [ok_bind, checkHigh]
  split <;> rfl

theorem decode2RR_of_codes {strict : Bool} {n : Nat} (mk : Mode → Mode → Instr) {m1 m2 : Mode}
    (h1 : modeDigit n 1 = m1.code) (h2 : modeDigit n 2 = m2.code) :
    decode2RR strict n mk =
      if strict && highPart n 2 != 0 then .error ⟨.decodeHighDigit, highPart n 2⟩ else .ok (mk m1 m2) := by
  rw [decode2RR, modeOfDigit_eq_ok.2 h1, modeOfDigit_eq_ok.2 h2]
  simp only [ok_bind, checkHigh]
  split <;> rfl

theorem decode0_eq {strict : Bool} {n : Nat} (i : Instr) :
    decode0 strict n i =
      if strict && highPart n 0 != 0 then .error ⟨.decodeHighDigit, highPart n 0⟩ else .ok i := by
  rw [decode0, checkHigh]
  split <;> rfl

/-- A digit up to 2 is the code of a mode (R65). -/
theorem code_of_digit {d : Nat} (h : d ≤ 2) : ∃ m : Mode, d = m.code := by
  obtain rfl | rfl | rfl : d = 0 ∨ d = 1 ∨ d = 2 := by omega
  · exact ⟨.position, rfl⟩
  · exact ⟨.immediate, rfl⟩
  · exact ⟨.relative, rfl⟩

theorem code_le (m : Mode) : m.code ≤ 2 := by cases m <;> decide

theorem isDest_iff_code (m : Mode) : m.isDest = true ↔ m.code ≠ 1 := by cases m <;> decide

/-- A number up to 2^63 - 1 is its own value as a word. -/
theorem toInt_ofNat_of_le {n : Nat} (h : n ≤ 9223372036854775807) : (BitVec.ofNat 64 n : Word).toInt = n := by
  have e : (BitVec.ofNat 64 n : Word) = BitVec.ofInt 64 (n : Int) := by simp
  rw [e, toInt_ofInt_of_in64]
  unfold in64
  omega

theorem decode_neg {strict : Bool} {w : Word} (h : w.toInt < 0) :
    decode strict w = .error ⟨.decodeOpcode, w.toInt.tmod 100⟩ := if_pos h

theorem decode_nonneg {strict : Bool} {w : Word} (h : 0 ≤ w.toInt) : decode strict w = decodeNat strict w.toNat :=
  if_neg (by omega)

/-- A non-negative word is its own natural number. -/
theorem toNat_of_nonneg {w : Word} (h : 0 ≤ w.toInt) : (w.toNat : Int) = w.toInt ∧ w.toNat ≤ 9223372036854775807 := by
  rw [BitVec.toInt_eq_toNat_cond] at h ⊢
  have := w.isLt
  split at h <;> split <;> omega

theorem decodeNat_wf {strict : Bool} {n : Nat} {i : Instr} (h : decodeNat strict n = .ok i) : i.wf = true := by
  unfold decodeNat at h
  split at h
  · obtain ⟨_, -, _, -, _, -, hd, -, rfl⟩ := decode3RRW_eq_ok.1 h; exact hd
  · obtain ⟨_, -, _, -, _, -, hd, -, rfl⟩ := decode3RRW_eq_ok.1 h; exact hd
  · obtain ⟨_, -, hd, -, rfl⟩ := decode1W_eq_ok.1 h; exact hd
  · obtain ⟨_, -, -, rfl⟩ := decode1R_eq_ok.1 h; rfl
  · obtain ⟨_, -, _, -, -, rfl⟩ := decode2RR_eq_ok.1 h; rfl
  · obtain ⟨_, -, _, -, -, rfl⟩ := decode2RR_eq_ok.1 h; rfl
  · obtain ⟨_, -, _, -, _, -, hd, -, rfl⟩ := decode3RRW_eq_ok.1 h; exact hd
  · obtain ⟨_, -, _, -, _, -, hd, -, rfl⟩ := decode3RRW_eq_ok.1 h; exact hd
  · obtain ⟨_, -, -, rfl⟩ := decode1R_eq_ok.1 h; rfl
  · obtain ⟨-, rfl⟩ := decode0_eq_ok.1 h; rfl
  · cases h

/-- The decoder answers well-formed instructions only. -/
theorem decode_wf {strict : Bool} {w : Word} {i : Instr} (h : decode strict w = .ok i) : i.wf = true := by
  by_cases hw : w.toInt < 0
  · rw [decode_neg hw] at h; cases h
  · rw [decode_nonneg (by omega)] at h; exact decodeNat_wf h

theorem fetch_wf {s : State} {i : Instr} (h : fetch s = .ok i) : i.wf = true := decode_wf (fetch_eq_ok.1 h).2

theorem modeDigit_eq_digit (n : Nat) {i : Nat} (h : 1 ≤ i) : modeDigit n i = digit n (1 + i) := by
  obtain ⟨i, rfl⟩ : ∃ k, i = k + 1 := ⟨i - 1, by omega⟩
  rw [modeDigit, digit, Nat.div_div_eq_div_mul, Nat.add_sub_cancel, show 1 + (i + 1) = i + 2 by omega, Nat.pow_add]
  rw [Nat.mul_comm]

theorem modeDigit_lt (n i : Nat) : modeDigit n i < 10 := Nat.mod_lt _ (by decide)

/-- The faults of a word that has passed the opcode check are legal (R161). -/
theorem decode3RRW_error_legal {c : Config} {n : Nat} (hn : n ≤ 9223372036854775807) (hd : destOf (n % 100) = some 3)
    {mk : Mode → Mode → Mode → Instr} {r : Raised} (h : decode3RRW c.strictHighDigits n mk = .error r) :
    legalInfo c r.kind r.info := by
  simp only [decode3RRW, bind_eq_error, modeOfDigit_eq_error, modeOfDigit_eq_ok, checkDestMode_eq_error,
    checkHigh_eq_error, pure_eq_ok, reduceCtorEq, and_false, exists_false, or_false] at h
  obtain ⟨h, rfl⟩ | ⟨_, -, ⟨h, rfl⟩ | ⟨_, -, ⟨h, rfl⟩ | ⟨_, h3, ⟨rfl, rfl⟩ | ⟨_, -, hs, hz, rfl⟩⟩⟩⟩ := h
  · have := modeDigit_lt n 1; exact ⟨by dsimp only; omega, by dsimp only; omega⟩
  · have := modeDigit_lt n 2; exact ⟨by dsimp only; omega, by dsimp only; omega⟩
  · have := modeDigit_lt n 3; exact ⟨by dsimp only; omega, by dsimp only; omega⟩
  · exact ⟨by dsimp only; omega, by dsimp only; omega, 3, hd, by rw [← modeDigit_eq_digit _ (by decide)]; exact h3⟩
  · exact ⟨hs, by dsimp only; omega⟩

theorem decode1W_error_legal {c : Config} {n : Nat} (hn : n ≤ 9223372036854775807) (hd : destOf (n % 100) = some 1)
    {mk : Mode → Instr} {r : Raised} (h : decode1W c.strictHighDigits n mk = .error r) : legalInfo c r.kind r.info := by
  simp only [decode1W, bind_eq_error, modeOfDigit_eq_error, modeOfDigit_eq_ok, checkDestMode_eq_error,
    checkHigh_eq_error, pure_eq_ok, reduceCtorEq, and_false, exists_false, or_false] at h
  obtain ⟨h, rfl⟩ | ⟨_, h1, ⟨rfl, rfl⟩ | ⟨_, -, hs, hz, rfl⟩⟩ := h
  · have := modeDigit_lt n 1; exact ⟨by dsimp only; omega, by dsimp only; omega⟩
  · exact ⟨by dsimp only; omega, by dsimp only; omega, 1, hd, by rw [← modeDigit_eq_digit _ (by decide)]; exact h1⟩
  · exact ⟨hs, by dsimp only; omega⟩

theorem decode1R_error_legal {c : Config} {n : Nat} {mk : Mode → Instr} {r : Raised}
    (h : decode1R c.strictHighDigits n mk = .error r) : legalInfo c r.kind r.info := by
  simp only [decode1R, bind_eq_error, modeOfDigit_eq_error, checkHigh_eq_error, pure_eq_ok, reduceCtorEq, and_false,
    exists_false, or_false] at h
  obtain ⟨h, rfl⟩ | ⟨_, -, hs, hz, rfl⟩ := h
  · have := modeDigit_lt n 1; exact ⟨by dsimp only; omega, by dsimp only; omega⟩
  · exact ⟨hs, by dsimp only; omega⟩

theorem decode2RR_error_legal {c : Config} {n : Nat} {mk : Mode → Mode → Instr} {r : Raised}
    (h : decode2RR c.strictHighDigits n mk = .error r) : legalInfo c r.kind r.info := by
  simp only [decode2RR, bind_eq_error, modeOfDigit_eq_error, checkHigh_eq_error, pure_eq_ok, reduceCtorEq, and_false,
    exists_false, or_false] at h
  obtain ⟨h, rfl⟩ | ⟨_, -, ⟨h, rfl⟩ | ⟨_, -, hs, hz, rfl⟩⟩ := h
  · have := modeDigit_lt n 1; exact ⟨by dsimp only; omega, by dsimp only; omega⟩
  · have := modeDigit_lt n 2; exact ⟨by dsimp only; omega, by dsimp only; omega⟩
  · exact ⟨hs, by dsimp only; omega⟩

theorem decode0_error_legal {c : Config} {n : Nat} {i : Instr} {r : Raised}
    (h : decode0 c.strictHighDigits n i = .error r) : legalInfo c r.kind r.info := by
  simp only [decode0, bind_eq_error, checkHigh_eq_error, pure_eq_ok, reduceCtorEq, and_false, exists_false, or_false] at h
  obtain ⟨hs, hz, rfl⟩ := h
  exact ⟨hs, by dsimp only; omega⟩

theorem operandsOf_eq_none {n : Nat} (h : n ≠ 1 ∧ n ≠ 2 ∧ n ≠ 3 ∧ n ≠ 4 ∧ n ≠ 5 ∧ n ≠ 6 ∧ n ≠ 7 ∧ n ≠ 8 ∧ n ≠ 9 ∧ n ≠ 99) :
    operandsOf n = none := by
  unfold operandsOf; split <;> simp_all

/-- Every fault of the decoder is a pair of R161. -/
theorem decode_error_legal {c : Config} {w : Word} {r : Raised} (h : decode c.strictHighDigits w = .error r) :
    legalInfo c r.kind r.info := by
  by_cases hw : w.toInt < 0
  · rw [decode_neg hw] at h
    cases h
    obtain ⟨k, hk⟩ : ∃ k : Nat, w.toInt = -k := ⟨w.toInt.natAbs, by omega⟩
    have h1 : w.toInt.tmod 100 = -(k % 100 : Nat) := by rw [hk, Int.neg_tmod, Int.tmod_eq_emod_of_nonneg (by omega)]; rfl
    have h2 : k % 100 < 100 := Nat.mod_lt _ (by decide)
    refine ⟨by dsimp only; omega, by dsimp only; omega, ?_⟩
    dsimp only
    rw [show (w.toInt.tmod 100).toNat = 0 by omega]
    rfl
  · obtain ⟨-, hn⟩ := toNat_of_nonneg (show 0 ≤ w.toInt by omega)
    rw [decode_nonneg (by omega)] at h
    have hl : w.toNat % 100 < 100 := Nat.mod_lt _ (by decide)
    unfold decodeNat at h
    split at h
    case h_11 h1 h2 h3 h4 h5 h6 h7 h8 h9 h99 =>
      cases h
      refine ⟨by dsimp only; omega, by dsimp only; omega, ?_⟩
      dsimp only
      rw [Int.toNat_natCast]
      exact operandsOf_eq_none ⟨h1, h2, h3, h4, h5, h6, h7, h8, h9, h99⟩
    case h_1 e => exact decode3RRW_error_legal hn (by rw [e]; rfl) h
    case h_2 e => exact decode3RRW_error_legal hn (by rw [e]; rfl) h
    case h_3 e => exact decode1W_error_legal hn (by rw [e]; rfl) h
    case h_4 => exact decode1R_error_legal h
    case h_5 => exact decode2RR_error_legal h
    case h_6 => exact decode2RR_error_legal h
    case h_7 e => exact decode3RRW_error_legal hn (by rw [e]; rfl) h
    case h_8 e => exact decode3RRW_error_legal hn (by rw [e]; rfl) h
    case h_9 => exact decode1R_error_legal h
    case h_10 => exact decode0_error_legal h

theorem fetch_error_legal {s : State} {r : Raised} (h : fetch s = .error r) : legalInfo s.cfg r.kind r.info := by
  obtain ⟨hv, rfl⟩ | ⟨-, h⟩ := fetch_eq_error.1 h
  · have h1 := toInt_in64 s.pc
    unfold in64 at h1
    exact ⟨hv, by dsimp only; omega, by dsimp only; omega⟩
  · exact decode_error_legal h

end Sys2Proof.Machine
end

