-- ==== Sys2Proof/Laws/Exec.lean ====
section
/-! SUPPORT. What one step can do, said once: `exec_effect` and `step_effect` are the inversion lemmas every claim about
a next state cites. -/

namespace Sys2Proof.Machine

open Sys2Proof

/-- The ways executing `i` in `s` can end (R91): the fault it raises, or the state its family rule leaves. -/
inductive Effect (i : Instr) (s : State) : State → Prop where
  | raised (r : Raised) (legal : legalInfo s.cfg r.kind r.info) : Effect i s (s.raise r)
  | computed (m1 m2 m3 : Mode) (v : Word)
      (kind : i = .add m1 m2 m3 ∨ i = .mul m1 m2 m3 ∨ i = .lt m1 m2 m3 ∨ i = .eq m1 m2 m3)
      (lits : s.literalsIn 3) (dest : s.valid (addrOf m3 (s.literal 3) s)) :
      Effect i s (s.stored (addrOf m3 (s.literal 3) s) v 4)
  | jumped (m1 m2 : Mode) (kind : i = .jt m1 m2 ∨ i = .jf m1 m2) (lits : s.literalsIn 2) (t : Word)
      (target : t = s.value m2 (s.literal 2)) : Effect i s (s.setPc t)
  | fellThrough (m1 m2 : Mode) (kind : i = .jt m1 m2 ∨ i = .jf m1 m2) (lits : s.literalsIn 2) :
      Effect i s (s.advance 3)
  | output (m1 : Mode) (kind : i = .out m1) (lits : s.literalsIn 1) :
      Effect i s ((s.emit (s.value m1 (s.literal 1))).advance 2)
  | rebased (m1 : Mode) (kind : i = .arb m1) (lits : s.literalsIn 1) (v : Word) : Effect i s ((s.setRb v).advance 2)
  | halted (kind : i = .hlt) : Effect i s s.halt
  | suspended (m1 : Mode) (kind : i = .inp m1) (empty : s.input = .queue []) (resolved : s.resolvesDest m1) :
      Effect i s (s.suspend (.inp m1))
  | popped (m1 : Mode) (kind : i = .inp m1) (v : Word) (rest : List Word) (queue : s.input = .queue (v :: rest))
      (lits : s.literalsIn 1) (dest : s.valid (addrOf m1 (s.literal 1) s)) :
      Effect i s ((s.setQueue rest).stored (addrOf m1 (s.literal 1) s) v 2)
  | waits (m1 : Mode) (kind : i = .inp m1) (mode : s.input = .blocking) : Effect i s s

theorem threeOperand_effect {i : Instr} {m1 m2 m3 : Mode} {f : Int → Int → Except Raised Word} {s t : State}
    (hk : i = .add m1 m2 m3 ∨ i = .mul m1 m2 m3 ∨ i = .lt m1 m2 m3 ∨ i = .eq m1 m2 m3)
    (hi : m3 = .immediate → legalInfo s.cfg .decodeImmDest (encodeNat i))
    (hf : ∀ x y r, f x y = .error r → legalInfo s.cfg r.kind r.info)
    (h : finish s (threeOperand i m1 m2 m3 f s) = .next t) : Effect i s t := by
  obtain h | ⟨r, he, rfl⟩ := finish_eq_next.1 h
  · obtain ⟨-, hl, -, -, hd, v, -, rfl⟩ := threeOperand_eq_ok.1 h
    exact .computed m1 m2 m3 v hk hl hd
  · exact .raised r (threeOperand_error_legal hi (fun x y => hf x y r) he)

theorem jumpIf_effect {i : Instr} {m1 m2 : Mode} {c : Int → Bool} {s t : State} (hk : i = .jt m1 m2 ∨ i = .jf m1 m2)
    (h : finish s (jumpIf m1 m2 c s) = .next t) : Effect i s t := by
  obtain h | ⟨r, he, rfl⟩ := finish_eq_next.1 h
  · obtain ⟨hl, -, -, rfl⟩ := jumpIf_eq_ok.1 h
    split
    · exact .jumped m1 m2 hk hl _ rfl
    · exact .fellThrough m1 m2 hk hl
  · exact .raised r (jumpIf_error_legal he)

theorem immDest_legal (c : Config) (m1 m2 : Mode) :
    legalInfo c .decodeImmDest (encodeNat (.add m1 m2 .immediate)) ∧
    legalInfo c .decodeImmDest (encodeNat (.mul m1 m2 .immediate)) ∧
    legalInfo c .decodeImmDest (encodeNat (.lt m1 m2 .immediate)) ∧
    legalInfo c .decodeImmDest (encodeNat (.eq m1 m2 .immediate)) := by
  refine ⟨?_, ?_, ?_, ?_⟩ <;> refine ⟨?_, ?_, 3, ?_, ?_⟩ <;> cases m1 <;> cases m2 <;> decide

theorem exec_effect {i : Instr} {s t : State} (h : exec i s = .next t) : Effect i s t := by
  cases i with
  | add m1 m2 m3 =>
    exact threeOperand_effect (.inl rfl) (fun e => e ▸ (immDest_legal s.cfg m1 m2).1)
      (fun _ _ _ => wr64_error_legal (.inl rfl)) h
  | mul m1 m2 m3 =>
    exact threeOperand_effect (.inr (.inl rfl)) (fun e => e ▸ (immDest_legal s.cfg m1 m2).2.1)
      (fun _ _ _ => wr64_error_legal (.inr (.inl rfl))) h
  | inp m1 =>
    obtain h | ⟨r, he, rfl⟩ := finish_eq_next.1 h
    · obtain ⟨d, hd, h⟩ := bind_eq_ok.1 h
      obtain ⟨hm, hl, hv, rfl⟩ := inputDest_eq_ok.1 hd
      unfold takeInput at h
      split at h
      · cases h; exact .suspended m1 rfl ‹_› ⟨hm, hl, hv⟩
      · obtain ⟨-, rfl⟩ := completeInput_eq_ok.1 h
        exact .popped m1 rfl _ _ ‹_› hl hv
      · cases h; exact .waits m1 rfl ‹_›
    · obtain h | ⟨d, hd, h⟩ := bind_eq_error.1 he
      · exact .raised r (inputDest_error_legal h)
      · obtain ⟨-, -, hv, rfl⟩ := inputDest_eq_ok.1 hd
        unfold takeInput completeInput at h
        split at h
        · cases h
        · obtain h | ⟨_, -, h⟩ := bind_eq_error.1 h
          · exact (memWrite_error_illegal h hv).elim
          · cases h
        · cases h
  | out m1 =>
    obtain h | ⟨r, he, rfl⟩ := finish_eq_next.1 h
    · obtain ⟨hl, -, u, hu, rfl⟩ := oneRead_eq_ok.1 h
      cases hu
      exact .output m1 rfl hl
    · exact .raised r (oneRead_error_legal (by intro _ e; cases e) he)
  | jt m1 m2 => exact jumpIf_effect (.inl rfl) h
  | jf m1 m2 => exact jumpIf_effect (.inr rfl) h
  | lt m1 m2 m3 =>
    exact threeOperand_effect (.inr (.inr (.inl rfl))) (fun e => e ▸ (immDest_legal s.cfg m1 m2).2.2.1)
      (by intro _ _ _ e; cases e) h
  | eq m1 m2 m3 =>
    exact threeOperand_effect (.inr (.inr (.inr rfl))) (fun e => e ▸ (immDest_legal s.cfg m1 m2).2.2.2)
      (by intro _ _ _ e; cases e) h
  | arb m1 =>
    obtain h | ⟨r, he, rfl⟩ := finish_eq_next.1 h
    · obtain ⟨hl, -, u, hu, rfl⟩ := oneRead_eq_ok.1 h
      obtain ⟨v, -, hu⟩ := bind_eq_ok.1 hu
      cases hu
      exact .rebased m1 rfl hl v
    · refine .raised r (oneRead_error_legal (fun x e => ?_) he)
      obtain e | ⟨_, -, e⟩ := bind_eq_error.1 e
      · exact wr64_error_legal (.inr (.inr rfl)) e
      · cases e
  | hlt => cases h; exact .halted rfl

theorem finish_answers (s : State) (x : Except Raised State) : ∃ t, finish s x = .next t := by
  cases x <;> exact ⟨_, rfl⟩

/-- Every instruction answers a next state in every state: no meaning faults or refuses. -/
theorem exec_answers (i : Instr) (s : State) : ∃ t, exec i s = .next t := by
  cases i <;> first | exact ⟨_, rfl⟩ | exact finish_answers s _

theorem step_of_fetch {s : State} {i : Instr} (hs : s.status = .running) (h : fetch s = .ok i) : step s = exec i s := by
  simp only [step, hs, h]

theorem step_of_fetch_error {s : State} {r : Raised} (hs : s.status = .running) (h : fetch s = .error r) :
    step s = .next (s.raise r) := by simp only [step, hs, h]

theorem step_running {s t : State} (h : step s = .next t) : s.status = .running := by
  cases hs : s.status <;> simp [step, hs] at h ⊢

/-- What a step can do: the fault of its fetch, or an effect of the instruction it fetched. -/
theorem step_effect {s t : State} (h : step s = .next t) :
    (∃ r, fetch s = .error r ∧ legalInfo s.cfg r.kind r.info ∧ t = s.raise r) ∨ ∃ i, fetch s = .ok i ∧ Effect i s t := by
  have hs := step_running h
  cases hf : fetch s with
  | error r =>
    rw [step_of_fetch_error hs hf] at h
    cases h
    exact .inl ⟨r, rfl, fetch_error_legal hf, rfl⟩
  | ok i =>
    rw [step_of_fetch hs hf] at h
    exact .inr ⟨i, rfl, exec_effect h⟩

end Sys2Proof.Machine
end

