-- ==== Sys2Proof/Laws/Simulation.lean ====
section
/-! SUPPORT. What an instruction reads: two states that agree in the parameters, MEM, PC and RB change alike, whatever
the other registers hold. -/

namespace Sys2Proof.Machine

open Sys2Proof

/-- The two states agree in everything an instruction other than IN reads. -/
structure SameReads (s s' : State) : Prop where
  cfg : s'.cfg = s.cfg
  mem : s'.mem = s.mem
  pc : s'.pc = s.pc
  rb : s'.rb = s.rb

/-- What an instruction other than IN can do to a state, as data. -/
inductive Change where
  | raise (r : Raised)
  | store (mem : Memory) (n : Nat)
  | jump (t : Word)
  | fall
  | emit (x : Word)
  | rebase (v : Word)
  | halt

/-- The state a change leaves. -/
def Change.apply : Change → State → State
  | .raise r, s => s.raise r
  | .store m n, s => State.advance n { s with mem := m }
  | .jump t, s => s.setPc t
  | .fall, s => s.advance 3
  | .emit x, s => (s.emit x).advance 2
  | .rebase v, s => (s.setRb v).advance 2
  | .halt, s => s.halt

/-- Two computations raise the same fault, or answer related values. -/
def Alike {α β : Type} (R : α → β → Prop) : Except Raised α → Except Raised β → Prop
  | .ok a, .ok b => R a b
  | .error r, .error r' => r = r'
  | _, _ => False

theorem Alike.bind {α β γ : Type} {R : β → γ → Prop} {x y : Except Raised α} {f : α → Except Raised β}
    {g : α → Except Raised γ} (e : y = x) (h : ∀ a, x = .ok a → Alike R (f a) (g a)) : Alike R (x >>= f) (y >>= g) := by
  subst e
  cases y with
  | error r => exact rfl
  | ok a => exact h a rfl

/-- The two results are one change of the two states. -/
def ChangedAlike (s s' t t' : State) : Prop := ∃ c : Change, t = c.apply s ∧ t' = c.apply s'

theorem finish_alike {s s' t : State} {x y : Except Raised State} (h : Alike (ChangedAlike s s') x y)
    (hx : finish s x = .next t) : ∃ t', finish s' y = .next t' ∧ ChangedAlike s s' t t' := by
  cases x with
  | error r =>
    cases y with
    | error r' => cases h; cases hx; exact ⟨_, rfl, .raise r, rfl, rfl⟩
    | ok => cases h
  | ok b =>
    cases y with
    | error r' => cases h
    | ok c => cases hx; exact ⟨_, rfl, h⟩

namespace SameReads

variable {s s' : State}

theorem valid (h : SameReads s s') (a : Int) : s'.valid a ↔ s.valid a := by rw [State.valid, State.valid, h.cfg]

theorem memRead (h : SameReads s s') (a : Int) : memRead a s' = memRead a s := by
  simp only [Machine.memRead, h.valid, h.mem]

theorem fetch (h : SameReads s s') : fetch s' = fetch s := by
  simp only [Machine.fetch, h.memRead, h.cfg, h.pc]

theorem lit (h : SameReads s s') (i : Nat) : lit i s' = lit i s := by simp only [Machine.lit, h.memRead, h.pc]

theorem addrOf (h : SameReads s s') (m : Mode) (l : Word) : addrOf m l s' = addrOf m l s := by
  cases m <;> simp only [Machine.addrOf, h.rb]

theorem readop (h : SameReads s s') (m : Mode) (l : Word) : readop m l s' = readop m l s := by
  cases m <;> simp only [Machine.readop, h.memRead, h.addrOf]

theorem dest (h : SameReads s s') (m : Mode) (l : Word) : dest m l s' = dest m l s := by
  simp only [Machine.dest, h.addrOf, h.valid]

theorem inputDest (h : SameReads s s') (m : Mode) : inputDest m s' = inputDest m s := by
  simp only [Machine.inputDest, h.lit, h.dest]

theorem threeOperand (h : SameReads s s') (i : Instr) (m1 m2 m3 : Mode) (f : Int → Int → Except Raised Word) :
    Alike (ChangedAlike s s') (threeOperand i m1 m2 m3 f s) (threeOperand i m1 m2 m3 f s') := by
  refine .bind rfl fun _ _ => .bind (h.lit 1) fun _ _ => .bind (h.lit 2) fun _ _ => .bind (h.lit 3) fun _ _ =>
    .bind (h.readop _ _) fun _ _ => .bind (h.readop _ _) fun _ _ => .bind (h.dest _ _) fun d hd =>
    .bind rfl fun v _ => ?_
  obtain ⟨hv, rfl⟩ := dest_eq_ok.1 hd
  rw [memWrite_of_valid _ hv, memWrite_of_valid _ ((h.valid _).2 hv), h.mem]
  exact ⟨.store _ 4, rfl, rfl⟩

theorem jumpIf (h : SameReads s s') (m1 m2 : Mode) (c : Int → Bool) :
    Alike (ChangedAlike s s') (jumpIf m1 m2 c s) (jumpIf m1 m2 c s') := by
  refine .bind (h.lit 1) fun _ _ => .bind (h.lit 2) fun _ _ => .bind (h.readop _ _) fun x _ =>
    .bind (h.readop _ _) fun t _ => ?_
  show ChangedAlike s s' _ _
  cases c x.toInt
  · exact ⟨.fall, rfl, rfl⟩
  · exact ⟨.jump t, rfl, rfl⟩

theorem out (h : SameReads s s') (m1 : Mode) :
    Alike (ChangedAlike s s') (oneRead m1 (fun x t => .ok (t.emit x)) s) (oneRead m1 (fun x t => .ok (t.emit x)) s') :=
  .bind (h.lit 1) fun _ _ => .bind (h.readop _ _) fun x _ => ⟨.emit x, rfl, rfl⟩

end SameReads

/-- An instruction other than IN changes states with the same reads alike. -/
theorem exec_alike {s s' t : State} (h : SameReads s s') {i : Instr} (hi : ∀ m, i ≠ .inp m) (hx : exec i s = .next t) :
    ∃ t', exec i s' = .next t' ∧ ChangedAlike s s' t t' := by
  cases i with
  | add m1 m2 m3 =>
    have a := h.threeOperand (.add m1 m2 m3) m1 m2 m3 (fun x y => wr64 s.cfg.overflow 1 (x + y))
    exact finish_alike (h.cfg ▸ a) hx
  | mul m1 m2 m3 =>
    have a := h.threeOperand (.mul m1 m2 m3) m1 m2 m3 (fun x y => wr64 s.cfg.overflow 2 (x * y))
    exact finish_alike (h.cfg ▸ a) hx
  | lt m1 m2 m3 => exact finish_alike (h.threeOperand _ _ _ _ _) hx
  | eq m1 m2 m3 => exact finish_alike (h.threeOperand _ _ _ _ _) hx
  | jt m1 m2 => exact finish_alike (h.jumpIf _ _ _) hx
  | jf m1 m2 => exact finish_alike (h.jumpIf _ _ _) hx
  | out m1 => exact finish_alike (h.out m1) hx
  | arb m1 =>
    refine finish_alike (.bind (h.lit 1) fun _ _ => .bind (h.readop _ _) fun x _ => ?_) hx
    dsimp only
    rw [h.cfg, h.rb]
    cases wr64 s.cfg.overflow 9 (s.rb.toInt + x.toInt) with
    | error r => exact rfl
    | ok v => exact ⟨.rebase v, rfl, rfl⟩
  | hlt => cases hx; exact ⟨_, rfl, .halt, rfl, rfl⟩
  | inp m1 => exact absurd rfl (hi m1)

end Sys2Proof.Machine
end

