-- ==== Sys2Proof/Laws/Completion.lean ====
section
/-! SUPPORT. What the parameters' constraint gives, a completed store read word by word, the cases of IN, and runs. -/

namespace Sys2Proof.Machine

open Sys2Proof

/-- The capacity is a value of INT64 (R5). -/
theorem capacity_le {s : State} (h : s.cfg.wf = true) : (s.cfg.capacity : Int) ≤ 9223372036854775807 := by
  simp [Config.wf] at h
  omega

/-- The residue is the low 64 bits of the exact result (R111). -/
theorem ofInt_wrap64 (v : Int) : BitVec.ofInt 64 (wrap64 v) = BitVec.ofInt 64 v := by
  apply BitVec.eq_of_toInt_eq
  rw [BitVec.toInt_ofInt, BitVec.toInt_ofInt]
  unfold wrap64
  rw [Int.fdiv_eq_ediv_of_nonneg _ (by decide), Int.bmod_def, Int.bmod_def]
  norm_num

/-- `wr64` answers the low 64 bits whenever it answers. -/
theorem wr64_of_in64_or_wrap {p : OverflowPolicy} {op : Nat} {v : Int} (h : in64 v ∨ p = .wrap) :
    wr64 p op v = .ok (BitVec.ofInt 64 v) := by
  by_cases hv : in64 v
  · exact wr64_of_in64 hv
  · obtain rfl := h.resolve_left hv
    rw [wr64_wrap hv, ofInt_wrap64]

/-- PC moves exactly past an instruction whose literals are in memory (R21). -/
theorem toInt_advance {s : State} {n : Nat} (hc : s.cfg.wf = true) (hl : s.literalsIn n) :
    (BitVec.ofInt 64 (s.pc.toInt + (n + 1 : Nat))).toInt = s.pc.toInt + (n + 1 : Nat) := by
  apply toInt_ofInt_of_in64
  have := capacity_le hc
  have := hl.1
  have := hl.2
  unfold in64
  omega

theorem storedAndAdvanced_stored {s : State} {n : Nat} {d : Int} {v : Word} (hc : s.cfg.wf = true) (hm : s.mem.wf = true)
    (hl : s.literalsIn n) (hd : s.valid d) : State.StoredAndAdvanced s (s.stored d v (n + 1)) d v (n + 1) := by
  refine ⟨rfl, toInt_advance hc hl, fun a => ?_⟩
  rw [State.stored_mem, Memory.read_write hm]
  have := hd.1
  congr 1
  simp only [eq_iff_iff]
  omega

theorem execInp_eq (m : Mode) (s : State) :
    exec (.inp m) s = finish s (inputDest m s >>= fun d => takeInput m d s) := rfl

theorem valid_of_inputDest {s : State} {m : Mode} {d : Int} (h : inputDest m s = .ok d) : s.valid d := by
  obtain ⟨-, -, h', rfl⟩ := inputDest_eq_ok.1 h
  exact h'

theorem exec_inp_raise {s : State} {m : Mode} {r : Raised} (h : inputDest m s = .error r) :
    exec (.inp m) s = .next (s.raise r) := by
  rw [execInp_eq, h]; rfl

theorem exec_inp_suspend {s : State} {m : Mode} {d : Int} (h : inputDest m s = .ok d) (e : s.input = .queue []) :
    exec (.inp m) s = .next (s.suspend (.inp m)) := by
  rw [execInp_eq, h]
  simp only [ok_bind, takeInput, e, finish_ok]

theorem exec_inp_wait {s : State} {m : Mode} {d : Int} (h : inputDest m s = .ok d) (e : s.input = .blocking) :
    exec (.inp m) s = .next s := by
  rw [execInp_eq, h]
  simp only [ok_bind, takeInput, e, finish_ok]

theorem exec_inp_pop {s : State} {m : Mode} {d : Int} {v : Word} {q : List Word} (h : inputDest m s = .ok d)
    (e : s.input = .queue (v :: q)) : exec (.inp m) s = .next ((s.setQueue q).stored d v 2) := by
  have hv : (s.setQueue q).valid d := valid_of_inputDest h
  rw [execInp_eq, h]
  simp only [ok_bind, takeInput, e, completeInput_eq_ok.2 ⟨hv, rfl⟩, finish_ok]

/-- How IN ends (R140): the fault of its destination, or suspension, waiting, or one word taken. -/
theorem exec_inp_cases {s t : State} {m : Mode} (h : exec (.inp m) s = .next t) :
    (∃ r, inputDest m s = .error r ∧ t = s.raise r) ∨ ∃ d, inputDest m s = .ok d ∧
      ((s.input = .queue [] ∧ t = s.suspend (.inp m)) ∨ (s.input = .blocking ∧ t = s) ∨
        ∃ v q, s.input = .queue (v :: q) ∧ t = (s.setQueue q).stored d v 2) := by
  cases hd : inputDest m s with
  | error r => rw [exec_inp_raise hd] at h; cases h; exact .inl ⟨r, rfl, rfl⟩
  | ok d =>
    refine .inr ⟨d, rfl, ?_⟩
    cases e : s.input with
    | blocking => rw [exec_inp_wait hd e] at h; cases h; exact .inr (.inl ⟨rfl, rfl⟩)
    | queue q =>
      cases q with
      | nil => rw [exec_inp_suspend hd e] at h; cases h; exact .inl ⟨rfl, rfl⟩
      | cons v q => rw [exec_inp_pop hd e] at h; cases h; exact .inr (.inr ⟨v, q, rfl, rfl⟩)

theorem fetch_congr {s t : State} (hc : t.cfg = s.cfg) (hm : t.mem = s.mem) (hp : t.pc = s.pc) : fetch t = fetch s := by
  unfold fetch memRead State.valid
  rw [hc, hm, hp]

/-- When an IN waits for SUPPLY, and for which destination (R32). -/
theorem waitingInput_eq_some {s : State} {d : Int} :
    waitingInput s = some d ↔
      s.status = .running ∧ s.input = .blocking ∧ ∃ m, fetch s = .ok (.inp m) ∧ inputDest m s = .ok d := by
  unfold waitingInput
  constructor
  · intro h
    split at h
    · split at h
      · cases h; exact ⟨‹_›, ‹_›, _, ‹_›, ‹_›⟩
      · cases h
    · cases h
  · rintro ⟨h1, h2, m, h3, h4⟩
    simp only [h1, h2, h3, h4]

/-- A RUNNING block always has a next state. -/
theorem step_answers {s : State} (h : s.status = .running) : ∃ t, step s = .next t := by
  cases hf : fetch s with
  | error r => exact ⟨_, step_of_fetch_error h hf⟩
  | ok i => rw [step_of_fetch h hf]; exact exec_answers i s

theorem run_succ {k : Nat} {s t : State} (h : step s = .next t) : run (k + 1) s = run k t := by simp only [run, h]

/-- A run stays where STATUS has left RUNNING. -/
theorem run_ended {k : Nat} {s : State} (h : s.status ≠ .running) : run k s = s := by
  cases k with
  | zero => rfl
  | succ k => cases hs : s.status <;> simp_all [run, step]

end Sys2Proof.Machine
end

