-- ==== Sys2Proof/Laws/PerInstr.lean ====
section
/-! SUPPORT. The family said of every instruction one by one: the canonical word of an instruction carries its opcode in
the two low decimal digits and has no high part (R61, R78). -/

namespace Sys2Proof.Laws.CanonicalWord

open Sys2Proof

/-- The two low decimal digits of the canonical word are the opcode, and no digit stands above the mode digits. -/
def Statement (i : Instr) : Prop :=
  (encode i).toNat % 100 = i.opcode ∧ (encode i).toNat < 10 ^ (2 + i.operandCount) ∧ 0 ≤ (encode i).toInt

theorem add (m1 m2 m3 : Mode) : Statement (.add m1 m2 m3) := by
  cases m1 <;> cases m2 <;> cases m3 <;> exact ⟨by decide, by decide, by decide⟩

theorem mul (m1 m2 m3 : Mode) : Statement (.mul m1 m2 m3) := by
  cases m1 <;> cases m2 <;> cases m3 <;> exact ⟨by decide, by decide, by decide⟩

theorem inp (m1 : Mode) : Statement (.inp m1) := by
  cases m1 <;> exact ⟨by decide, by decide, by decide⟩

theorem out (m1 : Mode) : Statement (.out m1) := by
  cases m1 <;> exact ⟨by decide, by decide, by decide⟩

theorem jt (m1 m2 : Mode) : Statement (.jt m1 m2) := by
  cases m1 <;> cases m2 <;> exact ⟨by decide, by decide, by decide⟩

theorem jf (m1 m2 : Mode) : Statement (.jf m1 m2) := by
  cases m1 <;> cases m2 <;> exact ⟨by decide, by decide, by decide⟩

theorem lt (m1 m2 m3 : Mode) : Statement (.lt m1 m2 m3) := by
  cases m1 <;> cases m2 <;> cases m3 <;> exact ⟨by decide, by decide, by decide⟩

theorem eq (m1 m2 m3 : Mode) : Statement (.eq m1 m2 m3) := by
  cases m1 <;> cases m2 <;> cases m3 <;> exact ⟨by decide, by decide, by decide⟩

theorem arb (m1 : Mode) : Statement (.arb m1) := by
  cases m1 <;> exact ⟨by decide, by decide, by decide⟩

theorem hlt : Statement .hlt := ⟨by decide, by decide, by decide⟩

end Sys2Proof.Laws.CanonicalWord
end

