-- ==== Sys2Proof/Tests/Slice0.lean ====
section
/-! SUPPORT. Tests against the spec's own vectors (95 sections 1 and 2), the refusals of the well-formedness checks, and
for every statement with hypotheses a state that meets them (`test_witness_…`). -/

namespace Sys2Proof.Machine.Tests

open Sys2Proof

/-- The parameters of 95 section 2. -/
def cfg1000 : Config := ⟨1000, .fault, 0, false⟩

/-- The same with the `wrap` policy. -/
def cfgWrap : Config := ⟨1000, .wrap, 0, false⟩

/-- The same with strict high digits. -/
def cfgStrict : Config := ⟨1000, .fault, 0, true⟩

/-- START of an image in queue mode at offset 0 (95 section 2). -/
def boot (image inputs : List Word) : State := startState cfg1000 image (some inputs) 0

/-- START of an image in queue mode at another offset. -/
def bootAt (pc : Word) (image : List Word) : State := startState cfg1000 image (some []) pc

/-- START of an image in blocking mode. -/
def bootBlocking (image : List Word) : State := startState cfg1000 image none 0

/-- START of an image with the `wrap` policy. -/
def bootWrap (image : List Word) : State := startState cfgWrap image (some []) 0

/-- An answer is a next state that passes a check. -/
def nextIs (o : StepOutcome) (p : State → Bool) : Bool :=
  match o with
  | .next t => p t
  | .fault _ => false
  | .refused _ => false

theorem exists_of_nextIs {o : StepOutcome} {p : State → Bool} (h : nextIs o p = true) : ∃ t, o = .next t ∧ p t = true := by
  cases o with
  | next t => exact ⟨t, rfl, h⟩
  | fault r => cases h
  | refused r => cases h

/-! ## Decoding: words of 95 section 2.1, one or more for each family -/

theorem test_decode_add : decode false 1 = .ok (.add .position .position .position) ∧
    decode false 1101 = .ok (.add .immediate .immediate .position) ∧
    decode false 22201 = .ok (.add .relative .relative .relative) := by decide

theorem test_decode_mul : decode false 1002 = .ok (.mul .position .immediate .position) := by decide

theorem test_decode_inp : decode false 203 = .ok (.inp .relative) ∧
    decode false 103 = .error ⟨.decodeImmDest, 103⟩ ∧ decode false 303 = .error ⟨.decodeMode, 3⟩ := by decide

theorem test_decode_out : decode false 104 = .ok (.out .immediate) ∧
    decode false 10104 = .ok (.out .immediate) := by decide

theorem test_decode_jumps : decode false 1105 = .ok (.jt .immediate .immediate) ∧
    decode false 1006 = .ok (.jf .position .immediate) := by decide

theorem test_decode_compares : decode false 21107 = .ok (.lt .immediate .immediate .relative) ∧
    decode false 1008 = .ok (.eq .position .immediate .position) := by decide

theorem test_decode_arb : decode false 109 = .ok (.arb .immediate) := by decide

theorem test_decode_hlt : decode false 99 = .ok .hlt ∧ decode false 199 = .ok .hlt ∧ decode false 2099 = .ok .hlt ∧
    decode true 199 = .error ⟨.decodeHighDigit, 1⟩ := by decide

theorem test_decode_bad_modes : decode false 11101 = .error ⟨.decodeImmDest, 11101⟩ ∧
    decode false 30001 = .error ⟨.decodeMode, 3⟩ ∧ decode false 10301 = .error ⟨.decodeMode, 3⟩ := by decide

theorem test_decode_bad_opcodes : decode false 0 = .error ⟨.decodeOpcode, 0⟩ ∧
    decode false 100 = .error ⟨.decodeOpcode, 0⟩ ∧ decode false 98 = .error ⟨.decodeOpcode, 98⟩ ∧
    decode false 10 = .error ⟨.decodeOpcode, 10⟩ := by decide

theorem test_decode_negative : decode false (-1) = .error ⟨.decodeOpcode, -1⟩ ∧
    decode false (-101) = .error ⟨.decodeOpcode, -1⟩ ∧ decode false (-100) = .error ⟨.decodeOpcode, 0⟩ ∧
    decode false (-99) = .error ⟨.decodeOpcode, -99⟩ := by decide

theorem test_encode : encode (.add .relative .relative .relative) = 22201 ∧
    encode (.mul .position .immediate .position) = 1002 ∧ encode (.jt .immediate .immediate) = 1105 ∧
    encode (.inp .relative) = 203 ∧ encode .hlt = 99 := by decide

theorem test_table_word : decodeTableWord 64 99 = some .hlt ∧
    decodeTableWord 256 1002 = some (.mul .position .immediate .position) ∧
    decodeTableWord 256 (2 ^ 64 * 7 + 1) = some (.add .position .position .position) ∧
    decodeTableWord 64 98 = none := by decide

/-! ## Well-formedness: each check refuses an ill-formed term (R68, R77, R5) -/

theorem test_wf_refuses_immediate_destinations :
    (Instr.add .position .position .immediate).wf = false ∧ (Instr.mul .position .position .immediate).wf = false ∧
    (Instr.lt .position .position .immediate).wf = false ∧ (Instr.eq .position .position .immediate).wf = false ∧
    (Instr.inp .immediate).wf = false := by decide

theorem test_wf_accepts : (Instr.add .immediate .immediate .relative).wf = true ∧ (Instr.inp .position).wf = true ∧
    (Instr.out .immediate).wf = true ∧ (Instr.jf .immediate .immediate).wf = true := by decide

theorem test_config_wf : Config.wf ⟨0, .fault, 0, false⟩ = false ∧
    Config.wf ⟨9223372036854775808, .fault, 0, false⟩ = false ∧ Config.wf ⟨1, .fault, 0, false⟩ = true ∧
    Config.default.wf = true := by decide

theorem test_memory_wf : Memory.wf [(3, 5), (3, 6)] = false ∧ Memory.wf [(4, 5), (3, 6)] = false ∧
    Memory.wf [(3, 0)] = false ∧ Memory.wf [(3, 5), (4, 6)] = true := by decide

/-! ## One step each: the vectors of 95 sections 2.2 to 2.6, by their ids -/

/-- T-ADD-2. -/
theorem test_add : nextIs (step (boot [1101, 5, 6, 1, 99] []))
    (fun t => t.pc == 4 && t.word 1 == 11 && t.status == .running) = true := by decide

/-- T-ADD-4. -/
theorem test_add_overflow : nextIs (step (boot [1101, 9223372036854775807, 1, 0, 99] []))
    (fun t => t.status == .faulted && t.faultKind == some .overflow && t.faultInfo == some 1 && t.pc == 0 &&
      t.word 0 == 1101) = true := by decide

/-- T-MUL-1. -/
theorem test_mul : nextIs (step (boot [1002, 4, 3, 4, 33] [])) (fun t => t.pc == 4 && t.word 4 == 99) = true := by decide

/-- T-MUL-6. -/
theorem test_mul_wrap : nextIs (step (bootWrap [1102, -1, -9223372036854775808, 0, 99]))
    (fun t => t.pc == 4 && (t.word 0).toInt == -9223372036854775808) = true := by decide

/-- T-LT-1 and T-LT-4. -/
theorem test_lt_true : nextIs (step (boot [1107, 3, 5, 9, 99] [])) (fun t => t.word 9 == 1) = true ∧
    nextIs (step (boot [1107, -1, 0, 9, 99] [])) (fun t => t.word 9 == 1) = true := by decide

/-- T-LT-2 and T-LT-3. -/
theorem test_lt_false : nextIs (step (boot [1107, 5, 3, 9, 99] [])) (fun t => t.word 9 == 0) = true ∧
    nextIs (step (boot [1107, 5, 5, 9, 99] [])) (fun t => t.word 9 == 0) = true := by decide

/-- T-EQ-1. -/
theorem test_eq_true : nextIs (step (boot [1008, 9, 8, 9, 99, 0, 0, 0, 0, 8] [])) (fun t => t.word 9 == 1) = true := by
  decide

/-- T-EQ-2. -/
theorem test_eq_false : nextIs (step (boot [1108, 7, 8, 9, 99] [])) (fun t => t.word 9 == 0 && t.pc == 4) = true := by
  decide

/-- T-JT-3, its first step: the target is not checked. -/
theorem test_jt_taken : nextIs (step (boot [1105, 1, -5] [])) (fun t => t.pc == -5 && t.status == .running) = true := by
  decide

/-- T-JT-4: the target of an untaken jump is resolved. -/
theorem test_jt_target_resolved : nextIs (step (boot [5, 3, -7, 0] []))
    (fun t => t.faultKind == some .address && t.faultInfo == some (-7) && t.pc == 0) = true := by decide

/-- T-JF-1. -/
theorem test_jf_taken : nextIs (step (boot [1106, 0, 9, 99] [])) (fun t => t.pc == 9) = true := by decide

/-- T-JF-2. -/
theorem test_jf_fall : nextIs (step (boot [1106, -1, 9, 99] [])) (fun t => t.pc == 3) = true := by decide

/-- T-HLT-1. -/
theorem test_hlt : nextIs (step (boot [99] []))
    (fun t => t.status == .halted && t.token == ⟨none, 0, some .hlt⟩) = true := by decide

/-- T-HLT-3 and T-HLT-4: the fetch faults. -/
theorem test_hlt_not_reached :
    nextIs (step (bootAt (-1) [99])) (fun t => t.faultKind == some .address && t.faultInfo == some (-1)) = true ∧
    nextIs (step (boot [] [])) (fun t => t.faultKind == some .decodeOpcode && t.faultInfo == some 0) = true := by decide

/-- T-IN-1, its first step. -/
theorem test_inp : nextIs (step (boot [3, 0, 4, 0, 99] [7]))
    (fun t => t.pc == 2 && t.word 0 == 7 && t.input == .queue []) = true := by decide

/-- T-IN-2 and T-IN-4: suspension, and the destination checked before the empty queue. -/
theorem test_inp_empty :
    nextIs (step (boot [3, 0, 4, 0, 99] []))
      (fun t => t.status == .suspended && t.token == ⟨none, 0, some (.inp .position)⟩) = true ∧
    nextIs (step (boot [203, -1] [])) (fun t => t.faultKind == some .address && t.faultInfo == some (-1)) = true := by
  decide

/-- T-OUT-1. -/
theorem test_out : nextIs (step (boot [104, -42, 99] []))
    (fun t => t.pc == 2 && t.lastOut == some (-42) && t.outlog == [-42]) = true := by decide

/-- T-OUT-3. -/
theorem test_out_fault : nextIs (step (boot [4, -3, 99] []))
    (fun t => t.faultKind == some .address && t.faultInfo == some (-3) && t.lastOutValid == false) = true := by decide

/-- T-ARB-1. -/
theorem test_arb : nextIs (step (boot [109, 10, 99] [])) (fun t => t.pc == 2 && t.rb == 10) = true := by decide

/-- T-ARB-5. -/
theorem test_arb_relative : nextIs (step (boot [209, 0, 99] [])) (fun t => t.pc == 2 && t.rb == 209) = true := by decide

/-- 44 R140 and 10 R32: the waiting IN completes with the supplied word. -/
theorem test_supply : nextIs (hostSupply 7 (bootBlocking [3, 0, 4, 0, 99]))
    (fun t => t.pc == 2 && t.word 0 == 7 && t.input == .blocking) = true := by decide

/-- A table word placed after reset is what the next step runs. -/
theorem test_fetch_word : nextIs (step (State.reset.withFetchWord 64 99)) (fun t => t.status == .halted) = true ∧
    nextIs (step (State.reset.withFetchWord 256 1)) (fun t => t.word 0 == 2 && t.pc == 4) = true := by decide

/-! ## Witnesses: states and operands that meet the hypotheses of the statements -/

theorem test_witness_DecodeOfEncodeIsTheInstruction :
    (Instr.add .relative .immediate .relative).wf = true ∧
    encodeNat (.add .relative .immediate .relative) + 10 ^ (2 + 3) * 1 ≤ 9223372036854775807 ∧
    Instr.wf .hlt = true ∧ encodeNat .hlt + 10 ^ (2 + 0) * 92233720368547757 ≤ 9223372036854775807 := by decide

theorem test_witness_DecodeAcceptsExactlyTheDecimalForms :
    decode false 199 = .ok .hlt ∧ Instr.wf .hlt = true ∧ (199 : Word).toInt = (encodeNat .hlt + 10 ^ (2 + 0) * 1 : Nat) := by
  decide

theorem test_witness_DecodeReportsTheFirstFailingCheck_opcode :
    (-1 : Word).toInt < 0 ∧ (-9223372036854775808 : Word).toInt < 0 ∧ 0 ≤ (0 : Word).toInt ∧
    operandsOf ((0 : Word).toNat % 100) = none ∧ operandsOf ((98 : Word).toNat % 100) = none := by decide

theorem test_witness_DecodeReportsTheFirstFailingCheck_mode :
    0 ≤ (32201 : Word).toInt ∧ operandsOf ((32201 : Word).toNat % 100) = some 3 ∧
    (∀ k, 1 ≤ k → k < 3 → digit (32201 : Word).toNat (1 + k) ≤ 2) ∧ 3 ≤ digit (32201 : Word).toNat (1 + 3) ∧
    operandsOf ((903 : Word).toNat % 100) = some 1 ∧ 3 ≤ digit (903 : Word).toNat (1 + 1) := by
  refine ⟨by decide, by decide, ?_, by decide, by decide, by decide⟩
  intro k h1 h2
  interval_cases k <;> decide

theorem test_witness_DecodeReportsTheFirstFailingCheck_destination :
    0 ≤ (12201 : Word).toInt ∧ operandsOf ((12201 : Word).toNat % 100) = some 3 ∧
    (∀ k, 1 ≤ k → k ≤ 3 → digit (12201 : Word).toNat (1 + k) ≤ 2) ∧
    destOf ((12201 : Word).toNat % 100) = some 3 ∧ digit (12201 : Word).toNat (1 + 3) = 1 := by
  refine ⟨by decide, by decide, ?_, by decide, by decide⟩
  intro k h1 h2
  interval_cases k <;> decide

theorem test_witness_DecodeReportsTheFirstFailingCheck_high :
    0 ≤ (100003 : Word).toInt ∧ operandsOf ((100003 : Word).toNat % 100) = some 1 ∧
    (∀ k, 1 ≤ k → k ≤ 1 → digit (100003 : Word).toNat (1 + k) ≤ 2) ∧
    (∀ p, destOf ((100003 : Word).toNat % 100) = some p → digit (100003 : Word).toNat (1 + p) ≠ 1) ∧
    (100003 : Word).toNat / 10 ^ (2 + 1) ≠ 0 ∧
    operandsOf ((199 : Word).toNat % 100) = some 0 ∧ (199 : Word).toNat / 10 ^ (2 + 0) ≠ 0 := by
  refine ⟨by decide, by decide, ?_, ?_, by decide, by decide, by decide⟩
  · intro k h1 h2
    interval_cases k
    decide
  · intro p hp
    have e : destOf ((100003 : Word).toNat % 100) = some 1 := by decide
    rw [e] at hp
    cases hp
    decide

theorem test_witness_ModeDigitsSelectModes :
    decode false 21007 = .ok (.lt .position .immediate .relative) ∧
    (modesOf (.lt .position .immediate .relative))[0]? = some .position ∧
    (modesOf (.lt .position .immediate .relative))[2]? = some .relative ∧
    0 ≤ (304 : Word).toInt ∧ operandsOf ((304 : Word).toNat % 100) = some 1 ∧ 3 ≤ digit (304 : Word).toNat (1 + 1) ∧
    operandsOf ((99005 : Word).toNat % 100) = some 2 ∧ digit (99005 : Word).toNat (1 + 1) ≤ 2 ∧
    3 ≤ digit (99005 : Word).toNat (1 + 2) := by decide

theorem test_witness_MemoryAccessChecksTheAddress :
    (0 : Int) ≤ 999 ∧ (999 : Int) < ((boot [] []).cfg.capacity : Int) ∧ ((boot [] []).cfg.capacity : Int) ≤ 1000 ∧
    (-1 : Int) < 0 := by decide

theorem test_witness_MemWriteChangesExactlyOneWord :
    (boot [1, 0, 0, 0, 99] []).mem.wf = true ∧ (boot [1, 0, 0, 0, 99] []).mem.below 1000 = true ∧
    (boot [1, 0, 0, 0, 99] []).valid 0 ∧ (boot [1, 0, 0, 0, 99] []).valid 999 := by decide

theorem test_witness_CanonicalMemoryIsDeterminedByItsReads :
    Memory.wf [(0, 1), (4, 99)] = true ∧
    ∀ a, Memory.read [(0, 1), (4, 99)] a = Memory.read (Memory.loadFrom 0 [1, 0, 0, 0, 99]) a :=
  ⟨by decide, fun _ => rfl⟩

/-- `valid` at both ends of memory, for the clauses of ReadOperandResolution and WriteDestinationResolution. -/
theorem test_witness_OperandResolution :
    let s := { boot [] [] with rb := 3 }
    s.valid (s.pc.toInt + (0 : Nat)) ∧ s.valid (s.pc.toInt + (999 : Nat)) ∧ s.valid (0 : Word).toInt ∧
    s.valid (999 : Word).toInt ∧ ¬s.valid (1000 : Word).toInt ∧ ¬s.valid (-1 : Word).toInt ∧
    s.valid ((-3 : Word).toInt + s.rb.toInt) ∧ s.valid ((996 : Word).toInt + s.rb.toInt) ∧
    ¬s.valid ((-4 : Word).toInt + s.rb.toInt) ∧ ¬s.valid ((997 : Word).toInt + s.rb.toInt) := by decide

theorem test_witness_ExactResultOrOverflowRule :
    in64 9223372036854775807 ∧ in64 (-9223372036854775808) ∧ ¬in64 9223372036854775808 ∧
    ¬in64 (-9223372036854775809) := by decide

theorem test_witness_AddStoresTheSum :
    let s := boot [1101, 9223372036854775806, 1, 999] []
    s.cfg.wf = true ∧ s.mem.wf = true ∧ s.resolves3 .immediate .immediate .position ∧
    in64 (s.operand 1 .immediate + s.operand 2 .immediate) := by decide

theorem test_witness_AddStoresTheSum_wrap :
    let s := bootWrap [1101, 9223372036854775807, 1, 999]
    s.cfg.wf = true ∧ s.mem.wf = true ∧ s.resolves3 .immediate .immediate .position ∧ s.cfg.overflow = .wrap ∧
    ¬in64 (s.operand 1 .immediate + s.operand 2 .immediate) := by decide

theorem test_witness_MulStoresTheProduct :
    let s := boot [1102, 1, -9223372036854775808, 0] []
    s.cfg.wf = true ∧ s.mem.wf = true ∧ s.resolves3 .immediate .immediate .position ∧
    in64 (s.operand 1 .immediate * s.operand 2 .immediate) := by decide

theorem test_witness_MulStoresTheProduct_wrap :
    let s := bootWrap [1102, -1, -9223372036854775808, 0]
    s.cfg.wf = true ∧ s.mem.wf = true ∧ s.resolves3 .immediate .immediate .position ∧ s.cfg.overflow = .wrap ∧
    ¬in64 (s.operand 1 .immediate * s.operand 2 .immediate) := by decide

theorem test_witness_ComparisonsCompareSecondAgainstFirst :
    let s := boot [1107, 3, 5, 9] []
    s.cfg.wf = true ∧ s.mem.wf = true ∧ s.resolves3 .immediate .immediate .position ∧
    s.operand 1 .immediate = 3 ∧ s.operand 2 .immediate = 5 ∧
    (boot [1107, 5, 3, 9] []).operand 1 .immediate = 5 ∧ (boot [1107, 5, 3, 9] []).operand 2 .immediate = 3 ∧
    (boot [1107, 5, 3, 9] []).resolves3 .immediate .immediate .position := by decide

/-- The hypotheses of JumpIfTrueMovesOnlyPc and JumpIfFalseMovesOnlyPc, with a condition of 1 and of 0, the last with the
instruction at the very end of memory. -/
theorem test_witness_JumpsMoveOnlyPc :
    (boot [1105, 1, -5] []).cfg.wf = true ∧ (boot [1105, 1, -5] []).resolves2 .immediate .immediate ∧
    (boot [1105, 1, -5] []).operand 1 .immediate ≠ 0 ∧
    (bootAt 997 []).resolves2 .position .position ∧ (bootAt 997 []).operand 1 .position = 0 := by decide

theorem test_witness_InputStoresTheFirstQueuedWord :
    let s := boot [3, 999] [7]
    s.cfg.wf = true ∧ s.mem.wf = true ∧ s.resolvesDest .position ∧ s.input = .queue [7] := by decide

theorem test_witness_InputSuspendsOrWaits :
    let s := boot [3, 0] []
    let u := bootBlocking [3, 0]
    s.cfg.wf = true ∧ s.mem.wf = true ∧ s.resolvesDest .position ∧ s.input = .queue [] ∧
    u.cfg.wf = true ∧ u.mem.wf = true ∧ u.resolvesDest .position ∧ u.input = .blocking ∧ u.status = .running ∧
    fetch u = .ok (.inp .position) := by decide

theorem test_witness_OutputRecordsItsOperand :
    (boot [104, -42] []).cfg.wf = true ∧ (boot [104, -42] []).resolvesRead .immediate ∧
    (bootAt 998 []).resolvesRead .position := by decide

theorem test_witness_AdjustRelativeBaseAddsItsOperand :
    let s := boot [109, 10] []
    let u := { bootWrap [109, 1] with rb := 9223372036854775807 }
    s.cfg.wf = true ∧ s.resolvesRead .immediate ∧ in64 (s.rb.toInt + s.operand 1 .immediate) ∧
    u.cfg.wf = true ∧ u.resolvesRead .immediate ∧ u.cfg.overflow = .wrap ∧
    ¬in64 (u.rb.toInt + u.operand 1 .immediate) := by decide

theorem test_witness_HaltStopsAtItsOwnAddress :
    ¬(bootAt (-1) []).valid (bootAt (-1) []).pc.toInt ∧ ¬(bootAt 1000 []).valid (bootAt 1000 []).pc.toInt ∧
    (boot [199] [5]).status = .running ∧ (boot [199] [5]).valid (boot [199] [5]).pc.toInt ∧
    0 ≤ ((boot [199] [5]).word 0).toInt ∧ ((boot [199] [5]).word 0).toNat % 100 = 99 ∧
    (boot [199] [5]).cfg.strictHighDigits = false ∧ (boot [199] [5]).input = .queue [5] ∧
    cfgStrict.strictHighDigits = true ∧ ((startState cfgStrict [199] none 0).word 0).toNat / 100 ≠ 0 ∧
    ((startState cfgStrict [99] none 0).word 0).toNat / 100 = 0 := by decide

theorem test_witness_OverflowFaultsWithTheOpcode :
    let s := boot [1101, 9223372036854775807, 1, 0] []
    let u := boot [1102, -1, -9223372036854775808, 0] []
    let v := { boot [109, -1] [] with rb := -9223372036854775808 }
    s.cfg.overflow = .fault ∧ s.resolves3 .immediate .immediate .position ∧
    ¬in64 (s.operand 1 .immediate + s.operand 2 .immediate) ∧
    u.cfg.overflow = .fault ∧ u.resolves3 .immediate .immediate .position ∧
    ¬in64 (u.operand 1 .immediate * u.operand 2 .immediate) ∧
    v.cfg.overflow = .fault ∧ v.resolvesRead .immediate ∧ ¬in64 (v.rb.toInt + v.operand 1 .immediate) := by decide

/-- Each clause of ThreeOperandFaultPriority: the first invalid address is literal 1, 2, 3, operand 1, 2, destination. -/
theorem test_witness_ThreeOperandFaultPriority :
    let a := bootAt 999 []
    let b := bootAt 998 []
    let c := bootAt 997 []
    let d := boot [1, 1000, 0, 0] []
    let e := boot [1, 0, -1, 0] []
    let f := boot [1, 0, 0, 1000] []
    ¬a.valid (a.pc.toInt + 1) ∧
    (b.valid (b.pc.toInt + 1) ∧ ¬b.valid (b.pc.toInt + 2)) ∧
    (c.valid (c.pc.toInt + 1) ∧ c.valid (c.pc.toInt + 2) ∧ ¬c.valid (c.pc.toInt + 3)) ∧
    (d.literalsIn 3 ∧ ¬d.readable .position (d.literal 1)) ∧
    (e.literalsIn 3 ∧ e.readable .position (e.literal 1) ∧ ¬e.readable .position (e.literal 2)) ∧
    (f.literalsIn 3 ∧ f.readable .position (f.literal 1) ∧ f.readable .position (f.literal 2) ∧
      ¬f.valid (f.destination 3 .position)) ∧ Mode.position.isDest = true := by decide

theorem test_witness_JumpFaultPriority :
    let a := bootAt 999 []
    let b := bootAt 998 []
    let d := boot [5, 1000, 0] []
    let e := boot [5, 0, -1] []
    ¬a.valid (a.pc.toInt + 1) ∧ (b.valid (b.pc.toInt + 1) ∧ ¬b.valid (b.pc.toInt + 2)) ∧
    (d.literalsIn 2 ∧ ¬d.readable .position (d.literal 1)) ∧
    (e.literalsIn 2 ∧ e.readable .position (e.literal 1) ∧ ¬e.readable .position (e.literal 2)) := by decide

theorem test_witness_OneOperandFaultPriority :
    let a := bootAt 999 []
    let d := boot [4, 1000] []
    ¬a.valid (a.pc.toInt + 1) ∧ (d.valid (d.pc.toInt + 1) ∧ ¬d.readable .position (d.literal 1)) ∧
    Mode.position.isDest = true ∧ ¬d.valid (d.destination 1 .position) := by decide

theorem test_witness_FetchAndDecodeFaultFirst :
    (bootAt 1000 []).status = .running ∧ ¬(bootAt 1000 []).valid (bootAt 1000 []).pc.toInt ∧
    (bootAt 999 []).valid (bootAt 999 []).pc.toInt ∧
    decode (bootAt 999 []).cfg.strictHighDigits ((bootAt 999 []).word (bootAt 999 []).pc.toInt) =
      .error ⟨.decodeOpcode, 0⟩ := by decide

theorem test_witness_ImmediateDestinationTermFaults :
    nextIs (exec (.add .position .relative .immediate) (boot [] []))
      (fun t => t.faultKind == some .decodeImmDest && t.faultInfo == some 12001) = true ∧
    nextIs (exec (.inp .immediate) (boot [] []))
      (fun t => t.faultKind == some .decodeImmDest && t.faultInfo == some 103) = true := by decide

theorem test_witness_FaultedIsLeftOnlyByStart :
    ({ boot [] [] with status := .faulted } : State).status = .faulted ∧ ([99] : List Word).length ≤ 1000 := by decide

theorem test_witness_UnfinishedStepsChangeNothing :
    (∃ t, step (boot [] []) = .next t ∧ (t.status == .faulted) = true) ∧
    (∃ t, step (boot [3, 0] []) = .next t ∧ (t.status == .suspended) = true) ∧
    (∃ t, step (bootBlocking [3, 0]) = .next t ∧ (t.status == .running) = true) ∧
    (bootBlocking [3, 0]).input = .blocking ∧ fetch (bootBlocking [3, 0]) = .ok (.inp .position) :=
  ⟨exists_of_nextIs (by decide), exists_of_nextIs (by decide), exists_of_nextIs (by decide), rfl, by decide⟩

theorem test_witness_FrameOfTheStoringInstructions :
    (∃ t, exec (.add .immediate .immediate .position) (boot [1101, 5, 6, 9] []) = .next t ∧
      (t.word 9 == 11 && t.word 8 == 0) = true) ∧
    (∃ t, exec (.eq .immediate .immediate .position) (boot [1108, 5, 6, -1] []) = .next t ∧
      (t.status == .faulted) = true) :=
  ⟨exists_of_nextIs (by decide), exists_of_nextIs (by decide)⟩

theorem test_witness_FrameOfInput :
    (∃ t, exec (.inp .position) (boot [3, 9] [7]) = .next t ∧ (t.word 9 == 7) = true) ∧
    (∃ t, exec (.inp .position) (boot [3, 9] []) = .next t ∧ (t.status == .suspended) = true) ∧
    (∃ t, exec (.inp .position) (bootBlocking [3, 9]) = .next t ∧ (t.pc == 0) = true) ∧
    (∃ t, exec (.inp .position) (boot [3, -1] [7]) = .next t ∧ (t.status == .faulted) = true) :=
  ⟨exists_of_nextIs (by decide), exists_of_nextIs (by decide), exists_of_nextIs (by decide), exists_of_nextIs (by decide)⟩

theorem test_witness_FrameOfInstructionsThatStoreNothing :
    (∃ t, exec (.jt .immediate .immediate) (boot [1105, 1, 0] []) = .next t ∧ (t.pc == 0) = true) ∧
    (∃ t, exec (.jf .immediate .immediate) (boot [1106, 1, 0] []) = .next t ∧ (t.pc == 3) = true) ∧
    (∃ t, exec (.out .immediate) (boot [104, 1] []) = .next t ∧ (t.lastOut == some 1) = true) ∧
    (∃ t, exec (.arb .immediate) (boot [109, 1] []) = .next t ∧ (t.rb == 1) = true) ∧
    (∃ t, exec .hlt (boot [99] []) = .next t ∧ (t.status == .halted) = true) :=
  ⟨exists_of_nextIs (by decide), exists_of_nextIs (by decide), exists_of_nextIs (by decide),
    exists_of_nextIs (by decide), exists_of_nextIs (by decide)⟩

theorem test_witness_StepRunsTheDecodedInstruction :
    let s := { boot [] [] with mem := [(999, 99)], pc := 999 }
    s.status = .running ∧ 0 ≤ s.pc.toInt ∧ s.pc.toInt < (s.cfg.capacity : Int) ∧
    decode s.cfg.strictHighDigits (Memory.read s.mem s.pc.toInt.toNat) = .ok .hlt := by decide

theorem test_witness_StepsExistExactlyWhileRunning :
    (∃ t, step (boot [99] []) = .next t ∧ (t.status == .halted) = true) ∧
    (∃ t, step (boot [3, 0] []) = .next t ∧ (t.status == .suspended) = true) ∧
    (∃ t, step (boot [0] []) = .next t ∧ (t.status == .faulted) = true) :=
  ⟨exists_of_nextIs (by decide), exists_of_nextIs (by decide), exists_of_nextIs (by decide)⟩

/-- An ADD whose four words end memory: PC becomes C. -/
theorem test_witness_ProgramCounterUpdate :
    (∃ t, step { boot [] [] with mem := [(996, 1)], pc := 996 } = .next t ∧
      (t.status == .running && t.pc == 1000) = true) ∧
    fetch { boot [] [] with mem := [(996, 1)], pc := 996 } = .ok (.add .position .position .position) ∧
    (∃ t, step (boot [1105, 1, -5] []) = .next t ∧ (t.status == .running && t.pc == -5) = true) ∧
    (boot [1105, 1, -5] []).operand 1 .immediate ≠ 0 ∧
    (∃ t, step (boot [1105, 0, -5] []) = .next t ∧ (t.status == .running && t.pc == 3) = true) ∧
    (∃ t, step (boot [1106, 0, -5] []) = .next t ∧ (t.status == .running && t.pc == -5) = true) ∧
    (∃ t, step (boot [1106, 1, -5] []) = .next t ∧ (t.status == .running && t.pc == 3) = true) :=
  ⟨exists_of_nextIs (by decide), by decide, exists_of_nextIs (by decide), by decide, exists_of_nextIs (by decide),
    exists_of_nextIs (by decide), exists_of_nextIs (by decide)⟩

theorem test_witness_RelativeBaseIsWrittenOnlyByArb :
    ∃ t, step (boot [109, 10] []) = .next t ∧ (t.rb != (boot [109, 10] []).rb) = true :=
  exists_of_nextIs (by decide)

theorem test_witness_MemoryIsWrittenOnlyThroughDestinations :
    (∃ t, step (boot [1, 0, 0, 0] []) = .next t ∧ (t.mem != (boot [1, 0, 0, 0] []).mem) = true) ∧
    (∃ t, step (boot [3, 0] [7]) = .next t ∧ (t.mem != (boot [3, 0] [7]).mem) = true) :=
  ⟨exists_of_nextIs (by decide), exists_of_nextIs (by decide)⟩

/-- One step to each of the four statuses. -/
theorem test_witness_StatusTransitionsOfAStep :
    (∃ t, step (boot [99] []) = .next t ∧ (t.status == .halted) = true) ∧
    (∃ t, step (boot [3, 0] []) = .next t ∧ (t.status == .suspended) = true) ∧
    (∃ t, step (boot [0] []) = .next t ∧ (t.status == .faulted) = true) ∧
    (∃ t, step (boot [1, 0, 0, 0] []) = .next t ∧ (t.status == .running) = true) :=
  ⟨exists_of_nextIs (by decide), exists_of_nextIs (by decide), exists_of_nextIs (by decide), exists_of_nextIs (by decide)⟩

theorem test_witness_OutputLogGrowsOnlyByOut :
    ∃ t, step (boot [104, 1] []) = .next t ∧ (t.outlog == [1]) = true := exists_of_nextIs (by decide)

theorem test_witness_InputQueueIsConsumedFromTheFront :
    ∃ t, step (boot [3, 0] [7, 8]) = .next t ∧ (t.input == .queue [8]) = true := exists_of_nextIs (by decide)

theorem test_witness_StepReadsNoObservationRegister :
    ∃ t, step (boot [104, 1] []) = .next t ∧ (t.outlog == [1]) = true := exists_of_nextIs (by decide)

/-- A freshly started block meets the invariant. -/
theorem inv_add : (boot [1, 0, 0, 0, 99] []).Inv where
  cfgWf := by decide
  memWf := by decide
  memBelow := by decide
  suspendedAtIn := nofun
  haltedAtHlt := nofun
  faultKindIff := by decide
  faultInfoIff := by decide
  faultLegal := nofun
  lastOutNewest := rfl
  curInsnLegal := nofun

/-- A block suspended at an IN. -/
def suspendedBlock : State := { boot [3, 0] [] with status := .suspended, curInsn := some (.inp .position) }

theorem inv_suspended : suspendedBlock.Inv where
  cfgWf := by decide
  memWf := by decide
  memBelow := by decide
  suspendedAtIn := fun _ => ⟨rfl, .position, by decide, by decide, rfl⟩
  haltedAtHlt := nofun
  faultKindIff := by decide
  faultInfoIff := by decide
  faultLegal := nofun
  lastOutNewest := rfl
  curInsnLegal := fun i h => .inr ⟨.position, rfl, by cases h; rfl⟩

/-- A block whose IN waits for SUPPLY. -/
theorem inv_waiting : (bootBlocking [3, 0]).Inv where
  cfgWf := by decide
  memWf := by decide
  memBelow := by decide
  suspendedAtIn := nofun
  haltedAtHlt := nofun
  faultKindIff := by decide
  faultInfoIff := by decide
  faultLegal := nofun
  lastOutNewest := rfl
  curInsnLegal := nofun

theorem test_witness_StepKeepsTheInvariant :
    (boot [1, 0, 0, 0, 99] []).Inv ∧ ∃ t, step (boot [1, 0, 0, 0, 99] []) = .next t ∧ (t.pc == 4) = true :=
  ⟨inv_add, exists_of_nextIs (by decide)⟩

theorem test_witness_HostActionsKeepTheInvariant :
    cfg1000.wf = true ∧ (∃ t, firstStart cfg1000 [99] none 0 = .next t ∧ (t.pc == 0) = true) ∧
    suspendedBlock.Inv ∧ (∃ t, hostStart [99] none 0 suspendedBlock = .next t ∧ (t.pc == 0) = true) ∧
    (∃ t, hostResume [5] suspendedBlock = .next t ∧ (t.input == .queue [5]) = true) ∧
    (bootBlocking [3, 0]).Inv ∧ ∃ t, hostSupply 7 (bootBlocking [3, 0]) = .next t ∧ (t.pc == 2) = true :=
  ⟨by decide, exists_of_nextIs (by decide), inv_suspended, exists_of_nextIs (by decide), exists_of_nextIs (by decide),
    inv_waiting, exists_of_nextIs (by decide)⟩

theorem test_witness_StartLoadsTheImageAndTheRegisters :
    Config.capacity ⟨2, .fault, 0, false⟩ < ([1, 2, 3] : List Word).length ∧
    ([1, 2] : List Word).length ≤ Config.capacity ⟨2, .fault, 0, false⟩ ∧
    (boot [] []).cfg = cfg1000 ∧ (boot [] []).status = .running ∧ suspendedBlock.cfg = cfg1000 ∧
    suspendedBlock.status ≠ .running := by decide

theorem test_witness_ResumeAppendsInputAndKeepsTheRest :
    suspendedBlock.Inv ∧ suspendedBlock.status = .suspended ∧ suspendedBlock.input = .queue [] ∧
    (boot [] []).status = .running ∧ ({ boot [] [] with status := .faulted } : State).status = .faulted ∧
    (boot [99] [5]).halt.status = .halted ∧ (boot [99] [5]).halt.input = .queue [5] ∧
    (bootBlocking [99]).halt.input = .blocking := ⟨inv_suspended, rfl, rfl, rfl, rfl, rfl, rfl, rfl⟩

theorem test_witness_ReadReturnsTheRegisters :
    (boot [] []).status = .running ∧ suspendedBlock.status ≠ .running ∧ suspendedBlock.input = .queue [] ∧
    (bootBlocking [99]).halt.status ≠ .running ∧ (bootBlocking [99]).halt.input = .blocking := by decide

theorem test_witness_SupplyNeedsAWaitingInput :
    (∃ t, hostSupply 7 (bootBlocking [3, 0]) = .next t ∧ (t.word 0 == 7) = true) ∧
    (bootBlocking [3, 0]).status = .running ∧ (bootBlocking [3, 0]).input = .blocking ∧
    fetch (bootBlocking [3, 0]) = .ok (.inp .position) ∧ (bootBlocking [3, 0]).resolvesDest .position ∧
    nextIs (hostSupply 7 (boot [3, 0] [])) (fun _ => true) = false ∧
    nextIs (hostSupply 7 (bootBlocking [3, 1000])) (fun _ => true) = false :=
  ⟨exists_of_nextIs (by decide), rfl, rfl, by decide, by decide, by decide, by decide⟩

/-- Echo without input (95 P2): it suspends, RESUME([7]) is allowed, and the resumed run and the uninterrupted one end. -/
theorem test_witness_ResumeEqualsUninterruptedRun :
    let s := boot [3, 0, 4, 0, 99] []
    let r := { run 1 s with input := .queue [7], status := .running }
    s.status = .running ∧ s.input = .queue [] ∧ Reaches s (run 1 s) ∧ (run 1 s).status = .suspended ∧
    hostResume [7] (run 1 s) = .next r ∧ (run 3 r).status = .halted ∧
    (run 3 { s with input := .queue [7] }).status = .halted :=
  ⟨rfl, rfl, ⟨1, rfl, by decide⟩, by decide, rfl, by decide, by decide⟩

theorem test_witness_LargerCapacityKeepsFaultFreeSteps :
    (boot [1, 0, 0, 0] []).cfg.capacity ≤ 1001 ∧
    ∃ t, step (boot [1, 0, 0, 0] []) = .next t ∧ (t.status != .faulted) = true :=
  ⟨by decide, exists_of_nextIs (by decide)⟩

theorem test_witness_PlacedTableWordRunsNext :
    State.reset.cfg.strictHighDigits = false ∧ State.reset.mem.wf = true ∧ State.reset.valid State.reset.pc.toInt ∧
    decodeTableWord 64 99 = some .hlt ∧ (bootAt 999 [5]).valid (bootAt 999 [5]).pc.toInt := by decide

end Sys2Proof.Machine.Tests
end

section
/-! SUPPORT. Proofs about the state of the block (10_state.md): its observation registers, its invariant, and the host's
actions. -/

namespace Sys2Proof.Machine

open Sys2Proof

/-! ## What a step does to OUTLOG, LAST_OUT and the input (R28 to R31) -/

theorem Effect.outlog {i : Instr} {s t : State} (h : Effect i s t) :
    (t.outlog = s.outlog ∧ t.lastOut = s.lastOut) ∨
    ∃ m, i = .out m ∧ t.outlog = s.outlog ++ [s.value m (s.literal 1)] ∧ t.lastOut = some (s.value m (s.literal 1)) := by
  cases h with
  | output m hi => exact .inr ⟨m, hi, rfl, rfl⟩
  | _ => exact .inl ⟨rfl, rfl⟩

theorem Effect.input {i : Instr} {s t : State} (h : Effect i s t) :
    t.input = s.input ∨ ∃ m v q, i = .inp m ∧ s.input = .queue (v :: q) ∧ t.input = .queue q := by
  cases h with
  | popped m hi v q hq => exact .inr ⟨m, v, q, hi, hq, rfl⟩
  | _ => exact .inl rfl

/-- Settles O40: a fetch fault writes neither register, and of the effects of an instruction only OUT's does. -/
theorem outputLogGrowsOnlyByOut : Obligations.OutputLogGrowsOnlyByOut := by
  intro s t h
  obtain ⟨r, -, -, rfl⟩ | ⟨i, hf, he⟩ := step_effect h
  · exact .inl ⟨rfl, rfl⟩
  · obtain hsame | ⟨m, rfl, hout⟩ := he.outlog
    · exact .inl hsame
    · exact .inr ⟨m, hf, hout⟩

/-- Settles O41: a fetch fault keeps the input, and of the effects of an instruction only IN's pop does not. -/
theorem inputQueueIsConsumedFromTheFront : Obligations.InputQueueIsConsumedFromTheFront := by
  intro s t h
  obtain ⟨r, -, -, rfl⟩ | ⟨i, hf, he⟩ := step_effect h
  · exact .inl rfl
  · obtain hsame | ⟨m, v, q, rfl, hpop⟩ := he.input
    · exact .inl hsame
    · exact .inr ⟨m, v, q, hf, hpop⟩

/-! ## No step reads an observation register (R26, R31, R34) -/

/-- The states agree in everything a step reads: what every instruction reads, the input and STATUS. -/
structure SameStepReads (s s' : State) : Prop extends SameReads s s' where
  input : s'.input = s.input
  status : s'.status = s.status

/-- `t` and `t'`, reached from `s` and `s'`, agree in everything a step reads, and OUTLOG has grown by the same words. -/
structure SameProgress (s s' t t' : State) : Prop extends SameStepReads t t' where
  outlog : ∃ out, t.outlog = s.outlog ++ out ∧ t'.outlog = s'.outlog ++ out

section SameProgress

variable {s s' t t' : State}

theorem SameProgress.silent (ht : t.outlog = s.outlog) (ht' : t'.outlog = s'.outlog) (h : SameStepReads t t') :
    SameProgress s s' t t' :=
  { h with outlog := ⟨[], by rw [ht, List.append_nil], by rw [ht', List.append_nil]⟩ }

theorem SameStepReads.raise (h : SameStepReads s s') (r : Raised) : SameProgress s s' (s.raise r) (s'.raise r) :=
  .silent rfl rfl { h with status := rfl }

theorem SameStepReads.advance (h : SameStepReads s s') (n : Nat) : SameStepReads (s.advance n) (s'.advance n) :=
  { h with pc := by rw [State.advance_pc, State.advance_pc, h.pc] }

theorem SameStepReads.stored (h : SameStepReads s s') (d : Int) (v : Word) (n : Nat) :
    SameStepReads (s.stored d v n) (s'.stored d v n) :=
  { h.advance n with mem := by rw [State.stored_mem, State.stored_mem, h.mem] }

theorem SameStepReads.change (h : SameStepReads s s') (c : Change) : SameProgress s s' (c.apply s) (c.apply s') := by
  have advanced := h.advance
  cases c with
  | raise r => exact h.raise r
  | store m n => exact .silent rfl rfl { advanced n with mem := rfl }
  | jump w => exact .silent rfl rfl { h with pc := rfl }
  | fall => exact .silent rfl rfl (advanced 3)
  | emit x => exact { advanced 2 with outlog := ⟨[x], rfl, rfl⟩ }
  | rebase v => exact .silent rfl rfl { advanced 2 with rb := rfl }
  | halt => exact .silent rfl rfl { h with status := rfl }

theorem SameStepReads.execInp (h : SameStepReads s s') {m : Mode} (hx : exec (.inp m) s = .next t) :
    ∃ t', exec (.inp m) s' = .next t' ∧ SameProgress s s' t t' := by
  have hdest := h.inputDest m
  obtain ⟨r, hd, rfl⟩ | ⟨d, hd, ⟨hq, rfl⟩ | ⟨hq, rfl⟩ | ⟨v, q, hq, rfl⟩⟩ := exec_inp_cases hx
  · exact ⟨_, exec_inp_raise (hdest.trans hd), h.raise r⟩
  · exact ⟨_, exec_inp_suspend (hdest.trans hd) (h.input.trans hq), .silent rfl rfl { h with status := rfl }⟩
  · exact ⟨_, exec_inp_wait (hdest.trans hd) (h.input.trans hq), .silent rfl rfl h⟩
  · exact ⟨_, exec_inp_pop (hdest.trans hd) (h.input.trans hq), .silent rfl rfl { h.stored d v 2 with input := rfl }⟩

theorem SameStepReads.exec (h : SameStepReads s s') {i : Instr} (hx : exec i s = .next t) :
    ∃ t', exec i s' = .next t' ∧ SameProgress s s' t t' := by
  by_cases hi : ∃ m, i = .inp m
  · obtain ⟨m, rfl⟩ := hi
    exact h.execInp hx
  · obtain ⟨t', hx', c, rfl, rfl⟩ := exec_alike h.toSameReads (not_exists.1 hi) hx
    exact ⟨_, hx', h.change c⟩

/-- States that agree in what a step reads make the same progress. -/
theorem SameStepReads.step (h : SameStepReads s s') (hx : step s = .next t) :
    ∃ t', step s' = .next t' ∧ SameProgress s s' t t' := by
  have hs := step_running hx
  have hs' := h.status.trans hs
  cases hf : fetch s with
  | error r =>
    rw [step_of_fetch_error hs hf] at hx
    cases hx
    exact ⟨_, step_of_fetch_error hs' (h.fetch.trans hf), h.raise r⟩
  | ok i =>
    rw [step_of_fetch hs hf] at hx
    rw [step_of_fetch hs' (h.fetch.trans hf)]
    exact h.exec hx

end SameProgress

/-- Settles O42: other contents of the observation registers leave what a step reads, and so its progress. -/
theorem stepReadsNoObservationRegister : Obligations.StepReadsNoObservationRegister := by
  intro s t lo ol fk fi ci h
  have reads : SameStepReads s { s with lastOut := lo, outlog := ol, faultKind := fk, faultInfo := fi, curInsn := ci } :=
    ⟨⟨rfl, rfl, rfl, rfl⟩, rfl, rfl⟩
  obtain ⟨t', hstep, p⟩ := reads.step h
  exact ⟨t', hstep, p.cfg, p.mem, p.pc, p.rb, p.input, p.status, p.outlog⟩

/-! ## The operations of a step keep the invariant (R24 to R31, R161)

The clauses about SUSPENDED and HALTED say nothing of a block that stays RUNNING, so an operation there owes only the
clauses about MEM and about the last output. -/

section Inv

variable {s : State}

/-- A RUNNING block's registers other than the status registers and CUR_INSN may be written at will, if MEM stays
canonical and within the capacity, and LAST_OUT stays the newest word of OUTLOG. -/
theorem State.Inv.written (hs : s.Inv) (hr : s.status = .running) {mem : Memory} {pc rb : Word} {input : Input}
    {lastOut : Option Word} {outlog : List Word} (hm : mem.wf = true) (hb : mem.below s.cfg.capacity = true)
    (ho : lastOut = outlog.getLast?) :
    State.Inv { s with mem := mem, pc := pc, rb := rb, input := input, lastOut := lastOut, outlog := outlog } :=
  { hs with
    memWf := hm
    memBelow := hb
    suspendedAtIn := fun e => nomatch hr.symm.trans e
    haltedAtHlt := fun e => nomatch hr.symm.trans e
    lastOutNewest := ho }

theorem State.Inv.setPc (hs : s.Inv) (hr : s.status = .running) (w : Word) : (s.setPc w).Inv :=
  hs.written hr hs.memWf hs.memBelow hs.lastOutNewest

theorem State.Inv.advance (hs : s.Inv) (hr : s.status = .running) (n : Nat) : (s.advance n).Inv := hs.setPc hr _

theorem State.Inv.setRb (hs : s.Inv) (hr : s.status = .running) (v : Word) : (s.setRb v).Inv :=
  hs.written hr hs.memWf hs.memBelow hs.lastOutNewest

theorem State.Inv.setQueue (hs : s.Inv) (hr : s.status = .running) (q : List Word) : (s.setQueue q).Inv :=
  hs.written hr hs.memWf hs.memBelow hs.lastOutNewest

theorem State.Inv.emit (hs : s.Inv) (hr : s.status = .running) (x : Word) : (s.emit x).Inv :=
  hs.written hr hs.memWf hs.memBelow List.getLast?_concat.symm

theorem State.Inv.stored (hs : s.Inv) (hr : s.status = .running) {d : Int} (hd : s.valid d) (v : Word) (n : Nat) :
    (s.stored d v n).Inv :=
  have hlt : d.toNat < s.cfg.capacity := (Int.toNat_lt hd.1).2 hd.2
  hs.written hr (Memory.wf_write hs.memWf _ v) (Memory.below_write hs.memBelow hlt v) hs.lastOutNewest

theorem State.Inv.raise (hs : s.Inv) {r : Raised} (legal : legalInfo s.cfg r.kind r.info) : (s.raise r).Inv :=
  { hs with
    suspendedAtIn := nofun
    haltedAtHlt := nofun
    faultKindIff := by simp
    faultInfoIff := by simp
    faultLegal := by rintro _ _ ⟨⟩ ⟨⟩; exact legal }

theorem State.Inv.suspend (hs : s.Inv) (hr : s.status = .running) {m : Mode} (hf : fetch s = .ok (.inp m))
    (hq : s.input = .queue []) (hd : s.resolvesDest m) : (s.suspend (.inp m)).Inv :=
  { hs with
    suspendedAtIn := fun _ => ⟨hq, m, hf, hd, rfl⟩
    haltedAtHlt := nofun
    faultKindIff := by simpa [hr] using hs.faultKindIff
    faultInfoIff := by simpa [hr] using hs.faultInfoIff
    curInsnLegal := by rintro _ ⟨⟩; exact .inr ⟨m, hd.1, rfl⟩ }

theorem State.Inv.halt (hs : s.Inv) (hr : s.status = .running) (hf : fetch s = .ok .hlt) : s.halt.Inv :=
  { hs with
    suspendedAtIn := nofun
    haltedAtHlt := fun _ => ⟨hf, rfl⟩
    faultKindIff := by simpa [hr] using hs.faultKindIff
    faultInfoIff := by simpa [hr] using hs.faultInfoIff
    curInsnLegal := by rintro _ ⟨⟩; exact .inl rfl }

/-- Every effect of the fetched instruction keeps the invariant. -/
theorem Effect.inv {i : Instr} {t : State} (h : Effect i s t) (hs : s.Inv) (hr : s.status = .running)
    (hf : fetch s = .ok i) : t.Inv := by
  cases h with
  | raised r legal => exact hs.raise legal
  | computed m1 m2 m3 v kind lits dest => exact hs.stored hr dest v 4
  | jumped m1 m2 kind lits w target => exact hs.setPc hr w
  | fellThrough m1 m2 kind lits => exact hs.advance hr 3
  | output m1 kind lits => exact (hs.emit hr _).advance hr 2
  | rebased m1 kind lits v => exact (hs.setRb hr v).advance hr 2
  | halted kind => subst kind; exact hs.halt hr hf
  | suspended m1 kind empty resolved => subst kind; exact hs.suspend hr hf empty resolved
  | popped m1 kind v rest queue lits dest => exact (hs.setQueue hr rest).stored hr dest v 2
  | waits m1 kind mode => exact hs

end Inv

/-- Settles O43: a fetch fault is a legal one, and every effect of a fetched instruction keeps the invariant. -/
theorem stepKeepsTheInvariant : Obligations.StepKeepsTheInvariant := by
  intro s t hs h
  obtain ⟨r, -, legal, rfl⟩ | ⟨i, hf, he⟩ := step_effect h
  · exact hs.raise legal
  · exact he.inv hs (step_running h) hf

/-! ## The host's actions (R35, R36) -/

section HostActions

variable {s : State}

theorem startState_inv {cfg : Config} {image : List Word} (hc : cfg.wf = true) (hl : image.length ≤ cfg.capacity)
    (inputs : Option (List Word)) (off : Word) : (startState cfg image inputs off).Inv where
  cfgWf := hc
  memWf := Memory.wfFrom_loadFrom 0 image
  memBelow := Memory.below_loadFrom 0 image ((Nat.zero_add _).le.trans hl)
  suspendedAtIn := nofun
  haltedAtHlt := nofun
  faultKindIff := by simp [startState]
  faultInfoIff := by simp [startState]
  faultLegal := nofun
  lastOutNewest := rfl
  curInsnLegal := nofun

/-- A suspended or halted block set RUNNING again keeps the invariant, whatever its input. -/
theorem State.Inv.resumed (hs : s.Inv) (hr : s.status = .suspended ∨ s.status = .halted) (input : Input) :
    State.Inv { s with input := input, status := .running } :=
  have hn : s.status ≠ .faulted := by obtain e | e := hr <;> simp [e]
  { hs with
    suspendedAtIn := nofun
    haltedAtHlt := nofun
    faultKindIff := by simpa [hn] using hs.faultKindIff
    faultInfoIff := by simpa [hn] using hs.faultInfoIff }

theorem firstStart_inv {cfg : Config} {image : List Word} {inputs : Option (List Word)} {off : Word} {t : State}
    (hc : cfg.wf = true) (h : firstStart cfg image inputs off = .next t) : t.Inv := by
  unfold firstStart at h
  split at h
  · cases h; exact startState_inv hc ‹_› inputs off
  · cases h

theorem firstStart_of_hostStart {image : List Word} {inputs : Option (List Word)} {off : Word} {t : State}
    (h : hostStart image inputs off s = .next t) : firstStart s.cfg image inputs off = .next t := by
  unfold hostStart at h
  split at h
  · cases h
  · exact h

theorem hostResume_cases {more : List Word} {t : State} (h : hostResume more s = .next t) :
    (s.status = .suspended ∨ s.status = .halted) ∧
      ∃ q, s.input = .queue q ∧ t = { s with input := .queue (q ++ more), status := .running } := by
  unfold hostResume at h
  split at h
  · cases h; exact ⟨.inl ‹_›, _, ‹_›, rfl⟩
  · cases h; exact ⟨.inr ‹_›, _, ‹_›, rfl⟩
  · cases h

theorem hostSupply_of_waiting {d : Int} (h : waitingInput s = some d) (v : Word) :
    hostSupply v s = .next (s.stored d v 2) := by
  obtain ⟨-, -, m, -, hd⟩ := waitingInput_eq_some.1 h
  rw [hostSupply, h]
  dsimp only
  rw [completeInput_eq_ok.2 ⟨valid_of_inputDest hd, rfl⟩, finish_ok]

theorem hostSupply_of_not_waiting (h : waitingInput s = none) (v : Word) :
    hostSupply v s = .refused .supplyNotAllowed := by rw [hostSupply, h]

theorem hostSupply_eq_next {v : Word} {t : State} :
    hostSupply v s = .next t ↔ ∃ d, waitingInput s = some d ∧ t = s.stored d v 2 := by
  cases h : waitingInput s with
  | none => simp [hostSupply_of_not_waiting h]
  | some d => simp [hostSupply_of_waiting h, eq_comm]

theorem inputDest_answers {m : Mode} : (∃ d, inputDest m s = .ok d) ↔ s.resolvesDest m := by
  simp [inputDest_eq_ok]

/-- An IN waits for SUPPLY exactly when it is at PC in blocking mode and its destination resolves (R32). -/
theorem exists_waitingInput :
    (∃ d, waitingInput s = some d) ↔
      s.status = .running ∧ s.input = .blocking ∧ ∃ m, fetch s = .ok (.inp m) ∧ s.resolvesDest m := by
  simp only [waitingInput_eq_some, ← inputDest_answers]
  constructor
  · rintro ⟨d, hr, hb, m, hf, hd⟩
    exact ⟨hr, hb, m, hf, d, hd⟩
  · rintro ⟨hr, hb, m, hf, d, hd⟩
    exact ⟨d, hr, hb, m, hf, hd⟩

end HostActions

/-- Settles O45: START by the start state, RESUME as a stopped block set RUNNING again, SUPPLY as a store at the valid
destination of the waiting IN. -/
theorem hostActionsKeepTheInvariant : Obligations.HostActionsKeepTheInvariant := by
  refine ⟨fun cfg image inputs off t => firstStart_inv, ?start, ?resume, ?supply⟩
  case start =>
    intro s image inputs off t hs h
    exact firstStart_inv hs.cfgWf (firstStart_of_hostStart h)
  case resume =>
    intro s more t hs h
    obtain ⟨hr, q, -, rfl⟩ := hostResume_cases h
    exact hs.resumed hr _
  case supply =>
    intro s v t hs h
    obtain ⟨d, hw, rfl⟩ := hostSupply_eq_next.1 h
    obtain ⟨hr, -, m, -, hd⟩ := waitingInput_eq_some.1 hw
    exact hs.stored hr (valid_of_inputDest hd) v 2

/-- Settles O49: SUPPLY applies exactly when an IN waits, and is refused by its one name otherwise. -/
theorem supplyNeedsAWaitingInput : Obligations.SupplyNeedsAWaitingInput := by
  intro s v
  constructor
  · rw [← exists_waitingInput]
    constructor
    · rintro ⟨t, h⟩
      obtain ⟨d, hw, -⟩ := hostSupply_eq_next.1 h
      exact ⟨d, hw⟩
    · rintro ⟨d, hw⟩
      exact ⟨_, hostSupply_of_waiting hw v⟩
  · intro h
    cases hw : waitingInput s with
    | none => exact hostSupply_of_not_waiting hw v
    | some d => exact absurd (hostSupply_of_waiting hw v) (h _)

theorem State.inq_of_queue {s : State} {q : List Word} (h : s.input = .queue q) : s.inq = some q := by
  rw [State.inq, h]

theorem State.inq_of_blocking {s : State} (h : s.input = .blocking) : s.inq = none := by rw [State.inq, h]

/-- Settles O48: READ's two branches, and INQ in the two input modes. -/
theorem readReturnsTheRegisters : Obligations.ReadReturnsTheRegisters := by
  intro s
  constructor
  · exact fun hr => if_pos hr
  · exact fun hr => ⟨_, if_neg hr, rfl, rfl, rfl, rfl, rfl, rfl, rfl, fun _ => State.inq_of_queue, State.inq_of_blocking⟩

end Sys2Proof.Machine
end

section
/-! SUPPORT. Proofs about memory (20_memory.md): the access checks, one write, the canonical form, which steps write
MEM, and what a larger capacity changes. -/

namespace Sys2Proof.Machine

open Sys2Proof

/-! ## One access (R46 to R48, R50) -/

theorem memWrite_of_not_valid {s : State} {a : Int} (v : Word) (h : ¬s.valid a) :
    memWrite a v s = .error ⟨.address, a⟩ := if_neg h

/-- Read after a write at a non-negative address, by the address itself. -/
theorem Memory.read_write_toNat {m : Memory} (hm : m.wf = true) {d : Int} (hd : 0 ≤ d) (v : Word) (b : Nat) :
    Memory.read (Memory.write m d.toNat v) b = if (b : Int) = d then v else Memory.read m b := by
  have hb : (b : Int) = d ↔ b = d.toNat := by omega
  simp only [hb, Memory.read_write hm]

/-- A write at a non-negative address leaves every other word alone, canonical form or not. -/
theorem Memory.read_write_toNat_ne (m : Memory) {d : Int} (hd : 0 ≤ d) (v : Word) {b : Nat} (hb : (b : Int) ≠ d) :
    Memory.read (Memory.write m d.toNat v) b = Memory.read m b :=
  Memory.read_write_ne m v (by omega)

/-- Settles O7: the address check of a read and of a write, decided by the range. -/
theorem memoryAccessChecksTheAddress : Obligations.MemoryAccessChecksTheAddress := by
  intro s a
  constructor
  · exact fun h0 hC => memRead_of_valid ⟨h0, hC⟩
  · intro h
    have hv : ¬s.valid a := fun ⟨h0, hC⟩ => by omega
    exact ⟨memRead_of_not_valid hv, fun v => memWrite_of_not_valid v hv⟩

/-- Settles O8: the written state, its canonical form and bound, and read after write. -/
theorem memWriteChangesExactlyOneWord : Obligations.MemWriteChangesExactlyOneWord := by
  intro s a v hm hb ha
  have hlt : a.toNat < s.cfg.capacity := (Int.toNat_lt ha.1).2 ha.2
  exact ⟨_, memWrite_of_valid v ha, rfl, Memory.wf_write hm _ v, Memory.below_write hb hlt v,
    Memory.read_write_toNat hm ha.1 v⟩

/-! ## The canonical form (R49, log 11) -/

@[simp] theorem Memory.read_cons_self (k : Nat) (w : Word) (m : Memory) : Memory.read ((k, w) :: m) k = w := if_pos rfl

theorem Memory.read_cons_of_ne {k a : Nat} (h : a ≠ k) (w : Word) (m : Memory) :
    Memory.read ((k, w) :: m) a = Memory.read m a := if_neg h.symm

/-- The first possible index of a canonical memory is at most the index of any word it holds. -/
theorem Memory.le_of_read_ne {lo : Nat} {m : Memory} (hm : Memory.wfFrom lo m = true) {a : Nat}
    (h : Memory.read m a ≠ Memory.unlisted) : lo ≤ a :=
  le_of_not_gt fun hlt => h (Memory.read_below hm hlt)

/-- Behind equal first indexes, memories that read alike go on reading alike. -/
theorem Memory.read_tail_congr {k : Nat} {w w' : Word} {m m' : Memory} (hm : Memory.wfFrom (k + 1) m = true)
    (hm' : Memory.wfFrom (k + 1) m' = true)
    (h : ∀ a, Memory.read ((k, w) :: m) a = Memory.read ((k, w') :: m') a) (a : Nat) :
    Memory.read m a = Memory.read m' a := by
  by_cases ha : a = k
  · subst a
    rw [Memory.read_below hm k.lt_succ_self, Memory.read_below hm' k.lt_succ_self]
  · have hr := h a
    rwa [Memory.read_cons_of_ne ha, Memory.read_cons_of_ne ha] at hr

theorem Memory.eq_of_read_eq {lo : Nat} {m m' : Memory} (hm : Memory.wfFrom lo m = true)
    (hm' : Memory.wfFrom lo m' = true) (h : ∀ a, Memory.read m a = Memory.read m' a) : m = m' := by
  induction m generalizing lo m' with
  | nil =>
    cases m' with
    | nil => rfl
    | cons cell' m' =>
      obtain ⟨k', w'⟩ := cell'
      obtain ⟨-, hw', -⟩ := Memory.wfFrom_cons.1 hm'
      exact absurd ((h k').trans (Memory.read_cons_self k' w' m')).symm hw'
  | cons cell m ih =>
    obtain ⟨k, w⟩ := cell
    obtain ⟨-, hw, hk⟩ := Memory.wfFrom_cons.1 hm
    have hreadk := (h k).symm.trans (Memory.read_cons_self k w m)
    cases m' with
    | nil => exact absurd hreadk.symm hw
    | cons cell' m' =>
      obtain ⟨k', w'⟩ := cell'
      obtain ⟨-, hw', hk'⟩ := Memory.wfFrom_cons.1 hm'
      have hreadk' := (h k').trans (Memory.read_cons_self k' w' m')
      have hle : k ≤ k' := Memory.le_of_read_ne (Memory.wfFrom_cons.2 ⟨le_rfl, hw, hk⟩) (hreadk' ▸ hw')
      have hge : k' ≤ k := Memory.le_of_read_ne (Memory.wfFrom_cons.2 ⟨le_rfl, hw', hk'⟩) (hreadk ▸ hw)
      obtain rfl := le_antisymm hle hge
      obtain rfl : w' = w := (Memory.read_cons_self k w' m').symm.trans hreadk
      rw [ih hk hk' (Memory.read_tail_congr hk hk' h)]

/-- Settles O9: the first cells have the same index, since each list holds a word there, and the rest reads alike. -/
theorem canonicalMemoryIsDeterminedByItsReads : Obligations.CanonicalMemoryIsDeterminedByItsReads :=
  fun _ _ hm hm' h => Memory.eq_of_read_eq hm hm' h

/-! ## Which steps write MEM (R48, R53) -/

/-- An effect leaves MEM as it was, or is the store of a computed result or of an input word at the destination. -/
theorem Effect.mem {i : Instr} {s t : State} (h : Effect i s t) :
    t.mem = s.mem ∨
    (∃ m1 m2 m3, (i = .add m1 m2 m3 ∨ i = .mul m1 m2 m3 ∨ i = .lt m1 m2 m3 ∨ i = .eq m1 m2 m3) ∧
      ∀ a : Nat, (a : Int) ≠ s.destination 3 m3 → Memory.read t.mem a = Memory.read s.mem a) ∨
    (∃ m1, i = .inp m1 ∧ ∀ a : Nat, (a : Int) ≠ s.destination 1 m1 → Memory.read t.mem a = Memory.read s.mem a) := by
  cases h with
  | computed m1 m2 m3 v kind lits dest =>
    exact .inr (.inl ⟨m1, m2, m3, kind, fun _ => Memory.read_write_toNat_ne s.mem dest.1 v⟩)
  | popped m1 kind v rest queue lits dest =>
    exact .inr (.inr ⟨m1, kind, fun _ => Memory.read_write_toNat_ne s.mem dest.1 v⟩)
  | _ => exact .inl rfl

/-- Settles O38: a fetch fault keeps MEM, and of the effects of an instruction only the two stores do not. -/
theorem memoryIsWrittenOnlyThroughDestinations : Obligations.MemoryIsWrittenOnlyThroughDestinations := by
  intro s t h hne
  obtain ⟨r, -, -, rfl⟩ | ⟨i, hf, he⟩ := step_effect h
  · exact absurd rfl hne
  · obtain hsame | ⟨m1, m2, m3, kind, frame⟩ | ⟨m1, rfl, frame⟩ := he.mem
    · exact absurd hsame hne
    · refine .inl ⟨m1, m2, m3, ?_, frame⟩
      simpa only [hf, Except.ok.injEq] using kind
    · exact .inr ⟨m1, hf, frame⟩

/-! ## A larger capacity (R46, R5, D1)

A larger `C` keeps every valid address valid, and no result but a fault depends on `C`. So each shape that completes
does so with the larger `C` too, in the same state but for `C`. -/

/-- The same state of a machine with capacity `c`. -/
def State.withCapacity (s : State) (c : Nat) : State := { s with cfg := { s.cfg with capacity := c } }

section LargerCapacity

variable {s t : State} {c : Nat}

theorem finish_withCapacity {x y : Except Raised State} (hxy : x = .ok t → y = .ok (t.withCapacity c))
    (h : finish s x = .next t) (hn : t.status ≠ .faulted) :
    finish (s.withCapacity c) y = .next (t.withCapacity c) := by
  obtain hx | ⟨r, -, rfl⟩ := finish_eq_next.1 h
  · rw [hxy hx, finish_ok]
  · exact absurd rfl hn

variable (hc : s.cfg.capacity ≤ c)

include hc

theorem State.valid_withCapacity {a : Int} (h : s.valid a) : (s.withCapacity c).valid a :=
  ⟨h.1, h.2.trans_le (Int.ofNat_le.2 hc)⟩

theorem State.literalsIn_withCapacity {n : Nat} (h : s.literalsIn n) : (s.withCapacity c).literalsIn n :=
  ⟨h.1, h.2.trans_le (Int.ofNat_le.2 hc)⟩

theorem State.readable_withCapacity {m : Mode} {l : Word} (h : s.readable m l) : (s.withCapacity c).readable m l :=
  h.imp_right (State.valid_withCapacity hc)

theorem fetch_withCapacity {i : Instr} (h : fetch s = .ok i) : fetch (s.withCapacity c) = .ok i := by
  obtain ⟨hpc, hw⟩ := fetch_eq_ok.1 h
  exact fetch_eq_ok.2 ⟨State.valid_withCapacity hc hpc, hw⟩

theorem threeOperand_withCapacity {i : Instr} {m1 m2 m3 : Mode} {f : Int → Int → Except Raised Word}
    (h : threeOperand i m1 m2 m3 f s = .ok t) :
    threeOperand i m1 m2 m3 f (s.withCapacity c) = .ok (t.withCapacity c) := by
  obtain ⟨hm, hl, hx, hy, hd, r, hr, rfl⟩ := threeOperand_eq_ok.1 h
  exact threeOperand_eq_ok.2 ⟨hm, State.literalsIn_withCapacity hc hl, State.readable_withCapacity hc hx,
    State.readable_withCapacity hc hy, State.valid_withCapacity hc hd, r, hr, rfl⟩

theorem jumpIf_withCapacity {m1 m2 : Mode} {p : Int → Bool} (h : jumpIf m1 m2 p s = .ok t) :
    jumpIf m1 m2 p (s.withCapacity c) = .ok (t.withCapacity c) := by
  obtain ⟨hl, hx, hy, rfl⟩ := jumpIf_eq_ok.1 h
  exact jumpIf_eq_ok.2 ⟨State.literalsIn_withCapacity hc hl, State.readable_withCapacity hc hx,
    State.readable_withCapacity hc hy, apply_ite (State.withCapacity · c) _ _ _⟩

theorem oneRead_withCapacity {m1 : Mode} {f : Word → State → Except Raised State}
    (hf : ∀ x u, f x s = .ok u → f x (s.withCapacity c) = .ok (u.withCapacity c)) (h : oneRead m1 f s = .ok t) :
    oneRead m1 f (s.withCapacity c) = .ok (t.withCapacity c) := by
  obtain ⟨hl, hx, u, hu, rfl⟩ := oneRead_eq_ok.1 h
  exact oneRead_eq_ok.2 ⟨State.literalsIn_withCapacity hc hl, State.readable_withCapacity hc hx, _, hf _ u hu, rfl⟩

theorem inputDest_withCapacity {m : Mode} {d : Int} (h : inputDest m s = .ok d) :
    inputDest m (s.withCapacity c) = .ok d := by
  obtain ⟨hm, hl, hd, rfl⟩ := inputDest_eq_ok.1 h
  exact inputDest_eq_ok.2 ⟨hm, State.literalsIn_withCapacity hc hl, State.valid_withCapacity hc hd, rfl⟩

theorem execInp_withCapacity {m : Mode} (h : exec (.inp m) s = .next t) (hn : t.status ≠ .faulted) :
    exec (.inp m) (s.withCapacity c) = .next (t.withCapacity c) := by
  obtain ⟨r, -, rfl⟩ | ⟨d, hd, ⟨hq, rfl⟩ | ⟨hq, rfl⟩ | ⟨v, q, hq, rfl⟩⟩ := exec_inp_cases h
  · exact absurd rfl hn
  · exact exec_inp_suspend (inputDest_withCapacity hc hd) hq
  · exact exec_inp_wait (inputDest_withCapacity hc hd) hq
  · exact exec_inp_pop (inputDest_withCapacity hc hd) hq

theorem exec_withCapacity {i : Instr} (h : exec i s = .next t) (hn : t.status ≠ .faulted) :
    exec i (s.withCapacity c) = .next (t.withCapacity c) := by
  cases i with
  | add m1 m2 m3 => exact finish_withCapacity (threeOperand_withCapacity hc) h hn
  | mul m1 m2 m3 => exact finish_withCapacity (threeOperand_withCapacity hc) h hn
  | lt m1 m2 m3 => exact finish_withCapacity (threeOperand_withCapacity hc) h hn
  | eq m1 m2 m3 => exact finish_withCapacity (threeOperand_withCapacity hc) h hn
  | jt m1 m2 => exact finish_withCapacity (jumpIf_withCapacity hc) h hn
  | jf m1 m2 => exact finish_withCapacity (jumpIf_withCapacity hc) h hn
  | inp m => exact execInp_withCapacity hc h hn
  | out m => exact finish_withCapacity (oneRead_withCapacity hc (by rintro x _ ⟨⟩; rfl)) h hn
  | arb m =>
    refine finish_withCapacity (oneRead_withCapacity hc fun x u hu => ?_) h hn
    obtain ⟨v, hv, ⟨⟩⟩ := bind_eq_ok.1 hu
    exact bind_eq_ok.2 ⟨v, hv, rfl⟩
  | hlt => cases h; rfl

end LargerCapacity

/-- Settles O51: a fault-free step ran an instruction, which is fetched and completes with the larger capacity too. -/
theorem largerCapacityKeepsFaultFreeSteps : Obligations.LargerCapacityKeepsFaultFreeSteps := by
  intro s t c hc h hn
  have hs := step_running h
  cases hf : fetch s with
  | error r =>
    rw [step_of_fetch_error hs hf] at h
    cases h
    exact absurd rfl hn
  | ok i =>
    rw [step_of_fetch hs hf] at h
    exact (step_of_fetch (s := s.withCapacity c) hs (fetch_withCapacity hc hf)).trans (exec_withCapacity hc h hn)

end Sys2Proof.Machine
end

section
/-! SUPPORT. Proofs about the decoder and operand resolution (30_encoding.md): the decimal forms of an instruction, the
five checks in their order, and the source's and the written-out words. -/

namespace Sys2Proof.Machine

open Sys2Proof

/-! ## The decimal forms of an instruction (R61, R64, R78) -/

/-- The mode digits of the first `k` operands in the number `n`, operand 1 first (R64). -/
def operandDigits (n k : Nat) : List Nat := (List.range' 1 k).map (modeDigit n)

/-- The mode digits the canonical word of `i` carries, operand 1 first (R78). -/
def modeCodes (i : Instr) : List Nat := (modesOf i).map Mode.code

@[simp] theorem operandDigits_zero (n : Nat) : operandDigits n 0 = [] := rfl
@[simp] theorem operandDigits_one (n : Nat) : operandDigits n 1 = [modeDigit n 1] := rfl
@[simp] theorem operandDigits_two (n : Nat) : operandDigits n 2 = [modeDigit n 1, modeDigit n 2] := rfl
@[simp] theorem operandDigits_three (n : Nat) :
    operandDigits n 3 = [modeDigit n 1, modeDigit n 2, modeDigit n 3] := rfl

theorem modeDigit_of_operandDigits {n k j d : Nat} (h : (operandDigits n k)[j]? = some d) : modeDigit n (1 + j) = d := by
  rw [operandDigits, List.getElem?_map, Option.map_eq_some_iff] at h
  obtain ⟨l, hl, rfl⟩ := h
  obtain ⟨-, rfl⟩ := List.getElem?_eq_some_iff.1 hl
  rw [List.getElem_range', Nat.one_mul]

/-- The decimal form of R61, digit by digit: opcode, mode digits, high part. -/
theorem eq_decimalForm_iff (i : Instr) (n h : Nat) :
    n = encodeNat i + 10 ^ (2 + i.operandCount) * h ↔
      n % 100 = i.opcode ∧ operandDigits n i.operandCount = modeCodes i ∧ highPart n i.operandCount = h := by
  rw [encodeNat, modeCodes, highPart]
  cases i with
  | add m1 m2 m3 | mul m1 m2 m3 | lt m1 m2 m3 | eq m1 m2 m3 =>
    have h1 := code_le m1
    have h2 := code_le m2
    have h3 := code_le m3
    simp only [Instr.opcode, Instr.modeDigits, Instr.operandCount, modesOf, operandDigits_three, modeDigit, List.map,
      List.cons.injEq, and_true, Nat.reduceSub]
    omega
  | jt m1 m2 | jf m1 m2 =>
    have h1 := code_le m1
    have h2 := code_le m2
    simp only [Instr.opcode, Instr.modeDigits, Instr.operandCount, modesOf, operandDigits_two, modeDigit, List.map,
      List.cons.injEq, and_true, Nat.reduceSub]
    omega
  | inp m1 | out m1 | arb m1 =>
    have h1 := code_le m1
    simp only [Instr.opcode, Instr.modeDigits, Instr.operandCount, modesOf, operandDigits_one, modeDigit, List.map,
      List.cons.injEq, and_true, Nat.reduceSub]
    omega
  | hlt =>
    simp only [Instr.opcode, Instr.modeDigits, Instr.operandCount, modesOf, operandDigits_zero, List.map, true_and]
    omega

/-- No negative word decodes (R62). -/
theorem toInt_nonneg_of_decode {strict : Bool} {w : Word} {i : Instr} (h : decode strict w = .ok i) : 0 ≤ w.toInt := by
  by_contra hneg
  rw [decode_neg (by omega)] at h
  cases h

/-- A number that decodes carries its instruction's opcode and mode digits, and no high part when strict. -/
theorem decodeNat_digits {strict : Bool} {n : Nat} {i : Instr} (h : decodeNat strict n = .ok i) :
    n % 100 = i.opcode ∧ operandDigits n i.operandCount = modeCodes i ∧
      (strict = true → highPart n i.operandCount = 0) := by
  unfold decodeNat at h
  split at h
  case h_1 e | h_2 e | h_7 e | h_8 e =>
    obtain ⟨m1, h1, m2, h2, m3, h3, -, hh, rfl⟩ := decode3RRW_eq_ok.1 h
    exact ⟨e, by simp [Instr.operandCount, modeCodes, modesOf, h1, h2, h3], hh⟩
  case h_3 e =>
    obtain ⟨m1, h1, -, hh, rfl⟩ := decode1W_eq_ok.1 h
    exact ⟨e, by simp [Instr.operandCount, modeCodes, modesOf, h1], hh⟩
  case h_4 e | h_9 e =>
    obtain ⟨m1, h1, hh, rfl⟩ := decode1R_eq_ok.1 h
    exact ⟨e, by simp [Instr.operandCount, modeCodes, modesOf, h1], hh⟩
  case h_5 e | h_6 e =>
    obtain ⟨m1, h1, m2, h2, hh, rfl⟩ := decode2RR_eq_ok.1 h
    exact ⟨e, by simp [Instr.operandCount, modeCodes, modesOf, h1, h2], hh⟩
  case h_10 e =>
    obtain ⟨hh, rfl⟩ := decode0_eq_ok.1 h
    exact ⟨e, rfl, hh⟩
  case h_11 => cases h

/-- A number with the opcode and mode digits of a well-formed instruction fails in its high part or not at all. -/
theorem decodeNat_of_digits (strict : Bool) {n : Nat} {i : Instr} (hwf : i.wf = true) (hop : n % 100 = i.opcode)
    (hm : operandDigits n i.operandCount = modeCodes i) :
    decodeNat strict n =
      if strict && highPart n i.operandCount != 0 then .error ⟨.decodeHighDigit, highPart n i.operandCount⟩
      else .ok i := by
  cases i with
  | add m1 m2 m3 | mul m1 m2 m3 | lt m1 m2 m3 | eq m1 m2 m3 =>
    simp only [Instr.operandCount, operandDigits_three, modeCodes, modesOf, List.map, List.cons.injEq, and_true] at hm
    obtain ⟨h1, h2, h3⟩ := hm
    simp only [decodeNat, hop, Instr.opcode]
    exact (decode3RRW_of_codes _ h1 h2 h3).trans (if_pos hwf)
  | inp m1 =>
    simp only [decodeNat, hop, Instr.opcode]
    exact (decode1W_of_codes _ (List.cons.inj hm).1).trans (if_pos hwf)
  | out m1 | arb m1 =>
    simp only [decodeNat, hop, Instr.opcode]
    exact decode1R_of_codes _ (List.cons.inj hm).1
  | jt m1 m2 | jf m1 m2 =>
    simp only [Instr.operandCount, operandDigits_two, modeCodes, modesOf, List.map, List.cons.injEq, and_true] at hm
    obtain ⟨h1, h2⟩ := hm
    simp only [decodeNat, hop, Instr.opcode]
    exact decode2RR_of_codes _ h1 h2
  | hlt =>
    simp only [decodeNat, hop, Instr.opcode]
    exact decode0_eq _

/-- What the decoder answers on the decimal form of a well-formed instruction with high part `h` (R70, R71). -/
theorem decodeNat_decimalForm (strict : Bool) {i : Instr} (hwf : i.wf = true) (h : Nat) :
    decodeNat strict (encodeNat i + 10 ^ (2 + i.operandCount) * h) =
      if strict && h != 0 then .error ⟨.decodeHighDigit, h⟩ else .ok i := by
  obtain ⟨hop, hm, hh⟩ := (eq_decimalForm_iff i _ h).1 rfl
  rw [decodeNat_of_digits strict hwf hop hm, hh]

theorem decode_decimalForm (strict : Bool) {i : Instr} (hwf : i.wf = true) {h : Nat}
    (hle : encodeNat i + 10 ^ (2 + i.operandCount) * h ≤ 9223372036854775807) :
    decode strict (BitVec.ofNat 64 (encodeNat i + 10 ^ (2 + i.operandCount) * h)) =
      if strict && h != 0 then .error ⟨.decodeHighDigit, h⟩ else .ok i := by
  have hInt := toInt_ofNat_of_le hle
  rw [decode_nonneg (by omega), BitVec.toNat_ofNat, Nat.mod_eq_of_lt (by omega), decodeNat_decimalForm strict hwf]

theorem operandCount_le (i : Instr) : i.operandCount ≤ 3 := by cases i <;> simp only [Instr.operandCount] <;> decide

/-- A canonical word has at most five decimal digits, since its high part is 0. -/
theorem encodeNat_lt (i : Instr) : encodeNat i < 100000 := by
  obtain ⟨-, -, hh⟩ := (eq_decimalForm_iff i (encodeNat i) 0).1 (by omega)
  calc encodeNat i < 10 ^ (2 + i.operandCount) := Nat.lt_of_div_eq_zero (by positivity) hh
    _ ≤ 10 ^ 5 := Nat.pow_le_pow_right (by decide) (by have := operandCount_le i; omega)

/-- Settles O1: the canonical word and the words with a high part are decimal forms. -/
theorem decodeOfEncodeIsTheInstruction : Obligations.DecodeOfEncodeIsTheInstruction := by
  intro strict i hwf
  constructor
  · have hlt := encodeNat_lt i
    have hcanon := decode_decimalForm strict hwf (h := 0) (by omega)
    simpa [encode] using hcanon
  · intro h h1 hle
    have hne : (h != 0) = true := bne_iff_ne.2 (by omega)
    rw [decode_decimalForm strict hwf hle, hne, Bool.and_true]

/-- Settles O2: a word that decodes carries its instruction's opcode and mode digits, and so is a decimal form. -/
theorem decodeAcceptsExactlyTheDecimalForms : Obligations.DecodeAcceptsExactlyTheDecimalForms := by
  intro strict w i
  constructor
  · intro hdec
    have hw := toInt_nonneg_of_decode hdec
    refine ⟨decode_wf hdec, highPart w.toNat i.operandCount, ?_⟩
    rw [decode_nonneg hw] at hdec
    obtain ⟨hop, hm, hh⟩ := decodeNat_digits hdec
    rw [← (eq_decimalForm_iff i _ _).2 ⟨hop, hm, rfl⟩]
    exact ⟨(toNat_of_nonneg hw).1.symm, hh⟩
  · rintro ⟨hwf, h, hform, hstrict⟩
    have hw : 0 ≤ w.toInt := by omega
    obtain ⟨hnat, -⟩ := toNat_of_nonneg hw
    have hn : w.toNat = encodeNat i + 10 ^ (2 + i.operandCount) * h := Int.ofNat_inj.1 (hnat.trans hform)
    rw [decode_nonneg hw, hn, decodeNat_decimalForm strict hwf]
    cases strict with
    | false => rfl
    | true => rw [hstrict rfl]; rfl

/-! ## The five checks in their order (R65, R67 to R70) -/

/-- What the decoder answers for a word of each format (R67): `k` operands, the destination `d` if the format has one. -/
inductive DecodedBy (strict : Bool) (n : Nat) : (k : Nat) → (d : Option Nat) → Except Raised Instr → Prop
  | f0 (i : Instr) : DecodedBy strict n 0 none (decode0 strict n i)
  | f1R (mk : Mode → Instr) : DecodedBy strict n 1 none (decode1R strict n mk)
  | f1W (mk : Mode → Instr) : DecodedBy strict n 1 (some 1) (decode1W strict n mk)
  | f2RR (mk : Mode → Mode → Instr) : DecodedBy strict n 2 none (decode2RR strict n mk)
  | f3RRW (mk : Mode → Mode → Mode → Instr) : DecodedBy strict n 3 (some 3) (decode3RRW strict n mk)

/-- The opcode map (R75) by operand count and destination. -/
theorem decodeNat_decodedBy (strict : Bool) {n k : Nat} (h : operandsOf (n % 100) = some k) :
    DecodedBy strict n k (destOf (n % 100)) (decodeNat strict n) := by
  unfold decodeNat
  split
  case h_1 e | h_2 e | h_7 e | h_8 e => rw [e] at h ⊢; cases h; exact .f3RRW _
  case h_3 e => rw [e] at h ⊢; cases h; exact .f1W _
  case h_4 e | h_9 e => rw [e] at h ⊢; cases h; exact .f1R _
  case h_5 e | h_6 e => rw [e] at h ⊢; cases h; exact .f2RR _
  case h_10 e => rw [e] at h ⊢; cases h; exact .f0 _
  case h_11 h1 h2 h3 h4 h5 h6 h7 h8 h9 h99 =>
    rw [operandsOf_eq_none ⟨h1, h2, h3, h4, h5, h6, h7, h8, h9, h99⟩] at h
    cases h

theorem decodeNat_of_no_operands (strict : Bool) {n : Nat} (h : operandsOf (n % 100) = none) :
    decodeNat strict n = .error ⟨.decodeOpcode, (n % 100 : Nat)⟩ := by
  unfold decodeNat
  split
  case h_1 e | h_2 e | h_3 e | h_4 e | h_5 e | h_6 e | h_7 e | h_8 e | h_9 e | h_10 e => rw [e] at h; cases h
  case h_11 => rfl

theorem modeOfDigit_of_ge {d : Nat} (h : 3 ≤ d) : modeOfDigit d = .error ⟨.decodeMode, d⟩ :=
  modeOfDigit_eq_error.2 ⟨h, rfl⟩

section DecodedBy

variable {strict : Bool} {n k j p : Nat} {d : Option Nat} {r : Except Raised Instr}

/-- The first digit above 2 is the one reported, whatever comes after it (D6). -/
theorem DecodedBy.first_bad_digit (h : DecodedBy strict n k d r) (hj : 1 ≤ j) (hjk : j ≤ k)
    (hlow : ∀ l, 1 ≤ l → l < j → ∃ m : Mode, modeDigit n l = m.code) (hbad : 3 ≤ modeDigit n j) :
    r = .error ⟨.decodeMode, modeDigit n j⟩ := by
  have hraise := modeOfDigit_of_ge hbad
  cases h with
  | f0 i => omega
  | f1R mk =>
    obtain rfl : j = 1 := by omega
    rw [decode1R, hraise, error_bind]
  | f1W mk =>
    obtain rfl : j = 1 := by omega
    rw [decode1W, hraise, error_bind]
  | f2RR mk =>
    obtain rfl | rfl : j = 1 ∨ j = 2 := by omega
    · rw [decode2RR, hraise, error_bind]
    · obtain ⟨m1, h1⟩ := hlow 1 (by decide) (by decide)
      rw [decode2RR, modeOfDigit_eq_ok.2 h1, ok_bind, hraise, error_bind]
  | f3RRW mk =>
    obtain rfl | rfl | rfl : j = 1 ∨ j = 2 ∨ j = 3 := by omega
    · rw [decode3RRW, hraise, error_bind]
    · obtain ⟨m1, h1⟩ := hlow 1 (by decide) (by decide)
      rw [decode3RRW, modeOfDigit_eq_ok.2 h1, ok_bind, hraise, error_bind]
    · obtain ⟨m1, h1⟩ := hlow 1 (by decide) (by decide)
      obtain ⟨m2, h2⟩ := hlow 2 (by decide) (by decide)
      rw [decode3RRW, modeOfDigit_eq_ok.2 h1, ok_bind, modeOfDigit_eq_ok.2 h2, ok_bind, hraise, error_bind]

/-- With legal digits the Immediate destination is reported, whatever the high part (R68). -/
theorem DecodedBy.immediate_dest (h : DecodedBy strict n k (some p) r)
    (hlegal : ∀ l, 1 ≤ l → l ≤ k → ∃ m : Mode, modeDigit n l = m.code) (himm : modeDigit n p = 1) :
    r = .error ⟨.decodeImmDest, n⟩ := by
  cases h with
  | f1W mk => exact decode1W_of_codes mk (m1 := .immediate) himm
  | f3RRW mk =>
    obtain ⟨m1, h1⟩ := hlegal 1 (by decide) (by decide)
    obtain ⟨m2, h2⟩ := hlegal 2 (by decide) (by decide)
    exact decode3RRW_of_codes mk h1 h2 (m3 := .immediate) himm

/-- The high part is looked at last, when strict (R70). -/
theorem DecodedBy.high_part (h : DecodedBy true n k d r)
    (hlegal : ∀ l, 1 ≤ l → l ≤ k → ∃ m : Mode, modeDigit n l = m.code)
    (hdest : ∀ p, d = some p → modeDigit n p ≠ 1) (hhigh : highPart n k ≠ 0) :
    r = .error ⟨.decodeHighDigit, highPart n k⟩ := by
  have hstrict : (true && highPart n k != 0) = true := bne_iff_ne.2 hhigh
  cases h with
  | f0 i => rw [decode0_eq, if_pos hstrict]
  | f1R mk =>
    obtain ⟨m1, h1⟩ := hlegal 1 (by decide) (by decide)
    rw [decode1R_of_codes mk h1, if_pos hstrict]
  | f1W mk =>
    obtain ⟨m1, h1⟩ := hlegal 1 (by decide) (by decide)
    have hd : m1.isDest = true := (isDest_iff_code m1).2 (h1 ▸ hdest 1 rfl)
    rw [decode1W_of_codes mk h1, if_pos hd, if_pos hstrict]
  | f2RR mk =>
    obtain ⟨m1, h1⟩ := hlegal 1 (by decide) (by decide)
    obtain ⟨m2, h2⟩ := hlegal 2 (by decide) (by decide)
    rw [decode2RR_of_codes mk h1 h2, if_pos hstrict]
  | f3RRW mk =>
    obtain ⟨m1, h1⟩ := hlegal 1 (by decide) (by decide)
    obtain ⟨m2, h2⟩ := hlegal 2 (by decide) (by decide)
    obtain ⟨m3, h3⟩ := hlegal 3 (by decide) (by decide)
    have hd : m3.isDest = true := (isDest_iff_code m3).2 (h3 ▸ hdest 3 rfl)
    rw [decode3RRW_of_codes mk h1 h2 h3, if_pos hd, if_pos hstrict]

end DecodedBy

/-- The remainder a negative word reports (D4). -/
theorem tmod_hundred_of_neg {v : Int} (h : v < 0) : -99 ≤ v.tmod 100 ∧ v.tmod 100 ≤ 0 := by
  have hneg : v.tmod 100 = -(-v).tmod 100 := by rw [Int.neg_tmod, Int.neg_neg]
  rw [hneg, Int.tmod_eq_emod_of_nonneg (by omega)]
  omega

theorem destOf_pos {op p : Nat} (h : destOf op = some p) : 1 ≤ p := by
  unfold destOf at h
  split at h <;> cases h <;> decide

theorem code_of_digit_le {n j : Nat} (hj : 1 ≤ j) (h : digit n (1 + j) ≤ 2) : ∃ m : Mode, modeDigit n j = m.code :=
  code_of_digit (by rwa [modeDigit_eq_digit n hj])

theorem decode_first_bad_digit {strict : Bool} {w : Word} {k j : Nat} (hw : 0 ≤ w.toInt)
    (hk : operandsOf (w.toNat % 100) = some k) (hj : 1 ≤ j) (hjk : j ≤ k)
    (hlow : ∀ l, 1 ≤ l → l < j → digit w.toNat (1 + l) ≤ 2) (hbad : 3 ≤ digit w.toNat (1 + j)) :
    decode strict w = .error ⟨.decodeMode, digit w.toNat (1 + j)⟩ := by
  rw [decode_nonneg hw]
  rw [← modeDigit_eq_digit _ hj] at hbad ⊢
  exact (decodeNat_decodedBy strict hk).first_bad_digit hj hjk (fun l h1 hl => code_of_digit_le h1 (hlow l h1 hl)) hbad

/-- Settles O3: the sign and the opcode by their own lemmas, the other checks by the word's format. -/
theorem decodeReportsTheFirstFailingCheck : Obligations.DecodeReportsTheFirstFailingCheck := by
  intro strict w
  refine ⟨fun hneg => ⟨decode_neg hneg, tmod_hundred_of_neg hneg⟩, fun hw hop => ?_, fun k hw hk => ⟨?_, ?_⟩⟩
  · rw [decode_nonneg hw, decodeNat_of_no_operands strict hop]
  · exact fun j hj hjk hlow hbad => decode_first_bad_digit hw hk hj hjk hlow hbad
  · intro hlegal
    have hcodes : ∀ l, 1 ≤ l → l ≤ k → ∃ m : Mode, modeDigit w.toNat l = m.code :=
      fun l h1 hl => code_of_digit_le h1 (hlegal l h1 hl)
    have hformat := decodeNat_decodedBy strict hk
    rw [decode_nonneg hw, ← (toNat_of_nonneg hw).1]
    constructor
    · intro p hp himm
      rw [← modeDigit_eq_digit _ (destOf_pos hp)] at himm
      rw [hp] at hformat
      exact hformat.immediate_dest hcodes himm
    · rintro hdest rfl hhigh
      refine hformat.high_part hcodes (fun p hp => ?_) hhigh
      rw [modeDigit_eq_digit _ (destOf_pos hp)]
      exact hdest p hp

/-- Settles O4: the mode digits of a word that decodes are the codes of the modes; a bad one is reported. -/
theorem modeDigitsSelectModes : Obligations.ModeDigitsSelectModes := by
  intro strict w
  constructor
  · intro i hdec j m hm
    have hw := toInt_nonneg_of_decode hdec
    rw [decode_nonneg hw] at hdec
    obtain ⟨-, hdigits, -⟩ := decodeNat_digits hdec
    have hcode : digit w.toNat (2 + j) = m.code := by
      have hj : (modeCodes i)[j]? = some m.code := by rw [modeCodes, List.getElem?_map, hm]; rfl
      have hmode := modeDigit_of_operandDigits (hdigits ▸ hj)
      rwa [modeDigit_eq_digit _ (by omega), ← Nat.add_assoc] at hmode
    cases m with
    | position => exact .inl ⟨hcode, rfl⟩
    | immediate => exact .inr (.inl ⟨hcode, rfl⟩)
    | relative => exact .inr (.inr ⟨hcode, rfl⟩)
  · exact fun k j hw hk hj hjk hlow hbad => decode_first_bad_digit hw hk hj hjk hlow hbad

/-! ## Words written out (R89, 95 section 2.1) -/

/-- Settles O5: each word is evaluated. -/
theorem decodeOfTheSourceExamples : Obligations.DecodeOfTheSourceExamples := by
  unfold Obligations.DecodeOfTheSourceExamples
  decide

/-- Settles O6: each word is evaluated. -/
theorem decodeOfWrittenOutWords : Obligations.DecodeOfWrittenOutWords := by
  unfold Obligations.DecodeOfWrittenOutWords
  decide

/-! ## Operand resolution (R80, R81) -/

/-- Settles O10: the literal and the two dereferences are checked reads; Immediate reads nothing. -/
theorem readOperandResolution : Obligations.ReadOperandResolution :=
  fun _ _ _ => ⟨lit_of_valid, memRead_of_valid, memRead_of_not_valid, rfl, memRead_of_valid, memRead_of_not_valid⟩

/-- Settles O11: a destination is the address of its mode, once that is valid. -/
theorem writeDestinationResolution : Obligations.WriteDestinationResolution := by
  intro s l
  exact ⟨dest_of_valid (m := .position), dest_of_not_valid (m := .position), dest_of_valid (m := .relative),
    dest_of_not_valid (m := .relative)⟩

end Sys2Proof.Machine
end

section
/-! SUPPORT. Proofs about the engine (40_engine.md): when a step exists and what it runs, how it ends, what each
instruction leaves unchanged, how PC moves, and that a resumed run ends as the uninterrupted one does. -/

namespace Sys2Proof.Machine

open Sys2Proof

/-! ## When a step exists and what it runs (R90 to R92, R95, R163) -/

/-- A step raises the fault of its fetch, or executes the instruction it fetched. -/
theorem step_cases {s t : State} (h : step s = .next t) :
    (∃ r, fetch s = .error r ∧ t = s.raise r) ∨ ∃ i, fetch s = .ok i ∧ exec i s = .next t := by
  have hs := step_running h
  cases hf : fetch s with
  | error r =>
    rw [step_of_fetch_error hs hf] at h
    cases h
    exact .inl ⟨r, rfl, rfl⟩
  | ok i =>
    rw [step_of_fetch hs hf] at h
    exact .inr ⟨i, rfl, h⟩

theorem step_suspended {s : State} (h : s.status = .suspended) : step s = .fault .blockSuspended := by rw [step, h]

theorem step_halted {s : State} (h : s.status = .halted) : step s = .fault .blockHalted := by rw [step, h]

theorem step_faulted {s : State} (h : s.status = .faulted) : step s = .fault .blockFaulted := by rw [step, h]

theorem step_not_refused (s : State) (r : Refusal) : step s ≠ .refused r := by
  cases hs : s.status with
  | running => obtain ⟨t, ht⟩ := step_answers hs; simp [ht]
  | suspended => simp [step_suspended hs]
  | halted => simp [step_halted hs]
  | faulted => simp [step_faulted hs]

/-- Settles O35: a RUNNING block always answers, and each of the other statuses answers by its name. -/
theorem stepsExistExactlyWhileRunning : Obligations.StepsExistExactlyWhileRunning :=
  fun s => ⟨⟨fun ⟨_, h⟩ => step_running h, step_answers⟩, step_not_refused s, step_suspended, step_halted, step_faulted⟩

/-- Settles O34: the fetch answers `i`, and the decoder answers well-formed instructions only. -/
theorem stepRunsTheDecodedInstruction : Obligations.StepRunsTheDecodedInstruction :=
  fun _ _ hs h0 hC hd => ⟨decode_wf hd, step_of_fetch hs (fetch_eq_ok.2 ⟨⟨h0, hC⟩, hd⟩)⟩

/-- Settles O27: the two ways a fetch fails, in their order; the step raises the fetch's fault. -/
theorem fetchAndDecodeFaultFirst : Obligations.FetchAndDecodeFaultFirst := by
  intro s hs
  constructor
  · exact fun hv => step_of_fetch_error hs (fetch_eq_error.2 (.inl ⟨hv, rfl⟩))
  · exact fun hv k n hd => step_of_fetch_error hs (fetch_eq_error.2 (.inr ⟨hv, hd⟩))

/-! ## How a step ends (R98, R99, R160) -/

/-- The four ends of a step, each with its status and what it writes; the step that stays RUNNING writes no status
register. -/
theorem step_ends {s t : State} (h : step s = .next t) :
    (t.status = .faulted ∧ ∃ r, t = s.raise r) ∨
    (t.status = .suspended ∧
      ∃ m, fetch s = .ok (.inp m) ∧ s.input = .queue [] ∧ s.resolvesDest m ∧ t = s.suspend (.inp m)) ∨
    (t.status = .halted ∧ fetch s = .ok .hlt ∧ t = s.halt) ∨
    (t.status = .running ∧ t.faultKind = s.faultKind ∧ t.faultInfo = s.faultInfo ∧ t.curInsn = s.curInsn) := by
  have hs := step_running h
  obtain ⟨r, -, -, rfl⟩ | ⟨i, hf, he⟩ := step_effect h
  · exact .inl ⟨rfl, r, rfl⟩
  · cases he with
    | raised r => exact .inl ⟨rfl, r, rfl⟩
    | suspended m kind empty resolved => exact .inr (.inl ⟨rfl, m, kind ▸ hf, empty, resolved, rfl⟩)
    | halted kind => exact .inr (.inr (.inl ⟨rfl, kind ▸ hf, rfl⟩))
    | _ => exact .inr (.inr (.inr ⟨hs, rfl, rfl, rfl⟩))

section Ends

variable {s t : State} (h : step s = .next t)

include h

theorem eq_raise_of_step (ht : t.status = .faulted) : ∃ r, t = s.raise r := by
  simpa [ht] using step_ends h

theorem eq_suspend_of_step (ht : t.status = .suspended) :
    ∃ m, fetch s = .ok (.inp m) ∧ s.input = .queue [] ∧ s.resolvesDest m ∧ t = s.suspend (.inp m) := by
  simpa [ht] using step_ends h

theorem eq_halt_of_step (ht : t.status = .halted) : fetch s = .ok .hlt ∧ t = s.halt := by
  simpa [ht] using step_ends h

theorem status_registers_of_step (ht : t.status = .running) :
    t.faultKind = s.faultKind ∧ t.faultInfo = s.faultInfo ∧ t.curInsn = s.curInsn := by
  simpa [ht] using step_ends h

theorem step_hlt_halts (hf : fetch s = .ok .hlt) : t.status = .halted := by
  rw [step_of_fetch (step_running h) hf] at h
  cases h
  rfl

/-- An IN with an empty queue and a valid destination suspends (R140). -/
theorem step_inp_suspends {m : Mode} (hf : fetch s = .ok (.inp m)) (hq : s.input = .queue []) (hd : s.resolvesDest m) :
    t.status = .suspended := by
  obtain ⟨d, hd⟩ := inputDest_answers.2 hd
  rw [step_of_fetch (step_running h) hf, exec_inp_suspend hd hq] at h
  cases h
  rfl

/-- In blocking mode an IN raises or waits (R32). -/
theorem step_inp_blocking {m : Mode} (hf : fetch s = .ok (.inp m)) (hb : s.input = .blocking) :
    (∃ r, t = s.raise r) ∨ t = s := by
  rw [step_of_fetch (step_running h) hf] at h
  obtain ⟨r, -, rfl⟩ | ⟨d, -, ⟨hq, -⟩ | ⟨-, rfl⟩ | ⟨v, q, hq, -⟩⟩ := exec_inp_cases h
  · exact .inl ⟨r, rfl⟩
  · cases hb.symm.trans hq
  · exact .inr rfl
  · cases hb.symm.trans hq

end Ends

/-- Settles O30: such a step ends in the raised state, in the suspended state, or where it was. -/
theorem unfinishedStepsChangeNothing : Obligations.UnfinishedStepsChangeNothing := by
  intro s t h unfinished
  have ends : (∃ r, t = s.raise r) ∨ (∃ i, t = s.suspend i) ∨ t = s := by
    obtain ht | ht | ⟨hb, m, hf⟩ := unfinished
    · exact .inl (eq_raise_of_step h ht)
    · obtain ⟨m, -, -, -, ht⟩ := eq_suspend_of_step h ht
      exact .inr (.inl ⟨_, ht⟩)
    · exact (step_inp_blocking h hf hb).imp_right .inr
  obtain ⟨r, rfl⟩ | ⟨i, rfl⟩ | rfl := ends <;> exact ⟨rfl, rfl, rfl, rfl, rfl, rfl, rfl, rfl⟩

/-- Settles O39: the status a step leaves says how it ended, and HLT and an IN without input reach their ends. -/
theorem statusTransitionsOfAStep : Obligations.StatusTransitionsOfAStep := by
  intro s t h
  refine ⟨⟨?_, step_hlt_halts h⟩, ⟨?_, ?_⟩, ?_, ?_, ?_, status_registers_of_step h⟩
  · exact fun ht => (eq_halt_of_step h ht).1
  · intro ht
    obtain ⟨m, hf, hq, hd, -⟩ := eq_suspend_of_step h ht
    exact ⟨m, hf, hq, hd⟩
  · rintro ⟨m, hf, hq, hd⟩
    exact step_inp_suspends h hf hq hd
  · exact fun ht => (eq_halt_of_step h ht).2
  · intro ht
    obtain ⟨m, hf, -, -, he⟩ := eq_suspend_of_step h ht
    exact ⟨m, hf, he⟩
  · intro ht
    obtain ⟨r, he⟩ := eq_raise_of_step h ht
    exact ⟨r.kind, r.info, he⟩

/-! ## What an instruction leaves unchanged (R96, R53) -/

/-- A step whose pseudocode does not answer writes the fault registers and STATUS only. -/
theorem faultedWith_or_ok_of_finish {s t : State} {x : Except Raised State} (h : finish s x = .next t) :
    (∃ k n, t = s.faultedWith k n) ∨ x = .ok t := by
  obtain h | ⟨r, -, rfl⟩ := finish_eq_next.1 h
  · exact .inr h
  · exact .inl ⟨r.kind, r.info, rfl⟩

theorem threeOperand_frame {s t : State} {i : Instr} {m1 m2 m3 : Mode} {f : Int → Int → Except Raised Word}
    (h : finish s (threeOperand i m1 m2 m3 f s) = .next t) :
    (∃ k n, t = s.faultedWith k n) ∨
    (t = { s with mem := t.mem, pc := t.pc } ∧
      ∀ a : Nat, (a : Int) ≠ s.destination 3 m3 → Memory.read t.mem a = Memory.read s.mem a) := by
  obtain hfault | h := faultedWith_or_ok_of_finish h
  · exact .inl hfault
  · obtain ⟨-, -, -, -, hd, v, -, rfl⟩ := threeOperand_eq_ok.1 h
    exact .inr ⟨rfl, fun _ => Memory.read_write_toNat_ne s.mem hd.1 v⟩

theorem jumpIf_frame {s t : State} {m1 m2 : Mode} {c : Int → Bool} (h : finish s (jumpIf m1 m2 c s) = .next t) :
    (∃ k n, t = s.faultedWith k n) ∨ t = { s with pc := t.pc } := by
  obtain hfault | h := faultedWith_or_ok_of_finish h
  · exact .inl hfault
  · obtain ⟨-, -, -, rfl⟩ := jumpIf_eq_ok.1 h
    right
    split <;> rfl

/-- Settles O31: the four instructions share the three-operand shape. -/
theorem frameOfTheStoringInstructions : Obligations.FrameOfTheStoringInstructions := by
  rintro s t m1 m2 m3 i (rfl | rfl | rfl | rfl) h <;> exact threeOperand_frame h

/-- Settles O32: the four ways an IN ends. -/
theorem frameOfInput : Obligations.FrameOfInput := by
  intro s t m h
  obtain ⟨r, -, rfl⟩ | ⟨d, hd, ⟨-, rfl⟩ | ⟨-, rfl⟩ | ⟨v, q, hq, rfl⟩⟩ := exec_inp_cases h
  · exact .inl ⟨r.kind, r.info, rfl⟩
  · exact .inr (.inl rfl)
  · exact .inr (.inr (.inl rfl))
  · obtain ⟨-, -, hv, rfl⟩ := inputDest_eq_ok.1 hd
    exact .inr (.inr (.inr ⟨rfl, ⟨v, q, hq, rfl⟩, fun _ => Memory.read_write_toNat_ne s.mem hv.1 v⟩))

/-- Settles O33: JT and JF by their shape, OUT and ARB by the register writes between their read and the advance. -/
theorem frameOfInstructionsThatStoreNothing : Obligations.FrameOfInstructionsThatStoreNothing := by
  intro s t m1 m2
  refine ⟨fun h => h.elim jumpIf_frame jumpIf_frame, fun h => ?out, fun h => ?arb, fun h => ?hlt⟩
  case out =>
    refine (faultedWith_or_ok_of_finish h).imp_right fun h => ?_
    obtain ⟨-, -, u, ⟨⟩, rfl⟩ := oneRead_eq_ok.1 h
    rfl
  case arb =>
    refine (faultedWith_or_ok_of_finish h).imp_right fun h => ?_
    obtain ⟨-, -, u, hu, rfl⟩ := oneRead_eq_ok.1 h
    obtain ⟨v, -, ⟨⟩⟩ := bind_eq_ok.1 hu
    rfl
  case hlt => cases h; rfl

/-! ## How PC moves (R97) -/

/-- Where a JT or JF that completes goes. -/
theorem jumpIf_pc {s t : State} {m1 m2 : Mode} {c : Int → Bool} (h : finish s (jumpIf m1 m2 c s) = .next t)
    (ht : t.status = .running) :
    s.literalsIn 2 ∧ t.pc = if c (s.operand 1 m1) then s.value m2 (s.literal 2) else (s.advance 3).pc := by
  obtain h | ⟨r, -, rfl⟩ := finish_eq_next.1 h
  · obtain ⟨hl, -, -, rfl⟩ := jumpIf_eq_ok.1 h
    exact ⟨hl, apply_ite State.pc _ _ _⟩
  · cases ht

/-- An effect that stays RUNNING and neither jumps nor waits moves PC past the instruction. -/
theorem Effect.pc {s t : State} {i : Instr} (h : Effect i s t) (ht : t.status = .running)
    (hw : ¬(s.input = .blocking ∧ ∃ m, i = .inp m)) :
    (∃ m1 m2, i = .jt m1 m2 ∨ i = .jf m1 m2) ∨ (s.literalsIn i.operandCount ∧ t.pc = (s.advance i.width).pc) := by
  cases h with
  | raised => cases ht
  | halted => cases ht
  | suspended => cases ht
  | waits m kind mode => exact absurd ⟨mode, m, kind⟩ hw
  | jumped m1 m2 kind => exact .inl ⟨m1, m2, kind⟩
  | fellThrough m1 m2 kind => exact .inl ⟨m1, m2, kind⟩
  | computed m1 m2 m3 v kind lits => obtain rfl | rfl | rfl | rfl := kind <;> exact .inr ⟨lits, rfl⟩
  | output m kind lits => subst kind; exact .inr ⟨lits, rfl⟩
  | rebased m kind lits => subst kind; exact .inr ⟨lits, rfl⟩
  | popped m kind v rest queue lits => subst kind; exact .inr ⟨lits, rfl⟩

/-- Past an instruction whose literals are in memory PC is exact and at most `C` (R21). -/
theorem toInt_advance_width {s : State} {i : Instr} (hc : s.cfg.wf = true) (hl : s.literalsIn i.operandCount) :
    (s.advance i.width).pc.toInt = s.pc.toInt + i.width ∧ s.pc.toInt + i.width ≤ s.cfg.capacity := by
  have hlast := hl.2
  rw [State.advance_pc, Instr.width, Nat.add_comm, toInt_advance hc hl]
  exact ⟨rfl, by push_cast; omega⟩

/-- Settles O36: JT and JF by their condition, every other completing instruction by its width. -/
theorem programCounterUpdate : Obligations.ProgramCounterUpdate := by
  intro s t i hc h hf ht hw
  rw [step_of_fetch (step_running h) hf] at h
  refine ⟨?jt, ?jf, fun hjt hjf => ?width, fun _ _ _ => ⟨rfl, rfl, rfl, rfl, rfl, rfl, rfl, rfl, rfl⟩⟩
  case jt =>
    rintro m1 m2 rfl hx
    simpa [hx] using (jumpIf_pc h ht).2
  case jf =>
    rintro m1 m2 rfl hx
    simpa [hx] using (jumpIf_pc h ht).2
  case width =>
    have past : s.literalsIn i.operandCount ∧ t.pc = (s.advance i.width).pc := by
      obtain ⟨m1, m2, rfl | rfl⟩ | past := (exec_effect h).pc ht hw
      · simpa [hjt m1 m2 rfl, Instr.width, Instr.operandCount] using jumpIf_pc h ht
      · simpa [hjf m1 m2 rfl, Instr.width, Instr.operandCount] using jumpIf_pc h ht
      · exact past
    obtain ⟨hl, hpc⟩ := past
    obtain ⟨hexact, hle⟩ := toInt_advance_width hc hl
    rw [hpc, hexact]
    exact ⟨rfl, hle⟩

/-! ## Runs to an end (R101) -/

/-- The steps of a run from the first state to an end, the second. -/
inductive EndsIn : State → State → Prop where
  | ended {T : State} (hT : T.status ≠ .running) : EndsIn T T
  | step {s t T : State} (hstep : step s = .next t) (rest : EndsIn t T) : EndsIn s T

theorem reaches_iff_endsIn {s T : State} : Reaches s T ↔ EndsIn s T := by
  constructor
  · rintro ⟨k, hrun, hT⟩
    induction k generalizing s with
    | zero => cases hrun; exact .ended hT
    | succ k ih =>
      by_cases hs : s.status = .running
      · obtain ⟨t, hstep⟩ := step_answers hs
        exact .step hstep (ih ((run_succ hstep).symm.trans hrun))
      · cases (run_ended hs).symm.trans hrun
        exact .ended hT
  · intro h
    induction h with
    | ended hT => exact ⟨0, rfl, hT⟩
    | step hstep _ ih =>
      obtain ⟨k, hrun, hT⟩ := ih
      exact ⟨k + 1, (run_succ hstep).trans hrun, hT⟩

theorem EndsIn.eq_of_ended {s T : State} (h : EndsIn s T) (hs : s.status ≠ .running) : T = s := by
  cases h with
  | ended => rfl
  | step hstep => exact absurd (step_running hstep) hs

/-- A step changes no end of the run. -/
theorem reaches_iff_of_step {s t T : State} (h : step s = .next t) : Reaches s T ↔ Reaches t T := by
  rw [reaches_iff_endsIn, reaches_iff_endsIn]
  constructor
  · rintro (hT | ⟨hstep, rest⟩)
    · exact absurd (step_running h) hT
    · cases h.symm.trans hstep
      exact rest
  · exact .step h

/-! ## A resumed run and the uninterrupted one (R103, D13, log 17)

Up to the suspension the run with `more` behind its input does what the run without it does. At the suspended IN it
stands in the resumed state but for CUR_INSN, which no step reads, and from there the two runs end alike. -/

/-- A change neither reads nor writes the queue. -/
theorem Change.apply_setQueue (c : Change) (s : State) (q : List Word) :
    c.apply (s.setQueue q) = (c.apply s).setQueue q := by
  cases c <;> rfl

theorem Change.apply_input (c : Change) (s : State) : (c.apply s).input = s.input := by
  cases c <;> rfl

theorem sameReads_setQueue (s : State) (q : List Word) : SameReads s (s.setQueue q) := ⟨rfl, rfl, rfl, rfl⟩

section MoreInput

variable {s t : State} {q : List Word} (more : List Word) (hq : s.input = .queue q) (ht : t.status = .running)

include hq ht

/-- An IN that takes a word takes the same one when more words stand behind it. -/
theorem execInp_more {m : Mode} (h : exec (.inp m) s = .next t) :
    ∃ q', t.input = .queue q' ∧ exec (.inp m) (s.setQueue (q ++ more)) = .next (t.setQueue (q' ++ more)) := by
  obtain ⟨r, -, rfl⟩ | ⟨d, hd, ⟨-, rfl⟩ | ⟨hb, -⟩ | ⟨v, q', hvq, rfl⟩⟩ := exec_inp_cases h
  · cases ht
  · cases ht
  · cases hq.symm.trans hb
  · cases hq.symm.trans hvq
    have hd' := ((sameReads_setQueue s (v :: q' ++ more)).inputDest m).trans hd
    exact ⟨q', rfl, exec_inp_pop hd' rfl⟩

theorem exec_more {i : Instr} (h : exec i s = .next t) :
    ∃ q', t.input = .queue q' ∧ exec i (s.setQueue (q ++ more)) = .next (t.setQueue (q' ++ more)) := by
  by_cases hi : ∃ m, i = .inp m
  · obtain ⟨m, rfl⟩ := hi
    exact execInp_more more hq ht h
  · obtain ⟨t', h', c, rfl, rfl⟩ := exec_alike (sameReads_setQueue s (q ++ more)) (not_exists.1 hi) h
    exact ⟨q, (c.apply_input s).trans hq, h'.trans (congrArg _ (c.apply_setQueue s _))⟩

/-- A step that stays RUNNING does the same with more words behind the queue. -/
theorem step_more (h : step s = .next t) :
    ∃ q', t.input = .queue q' ∧ step (s.setQueue (q ++ more)) = .next (t.setQueue (q' ++ more)) := by
  have hs := step_running h
  obtain ⟨r, -, rfl⟩ | ⟨i, hf, h⟩ := step_cases h
  · cases ht
  · have hf' := (sameReads_setQueue s (q ++ more)).fetch.trans hf
    rw [step_of_fetch (s := s.setQueue (q ++ more)) hs hf']
    exact exec_more more hq ht h

end MoreInput

/-- The states agree in everything but CUR_INSN, and in CUR_INSN too where the block is SUSPENDED or HALTED. -/
structure SameButCurInsn (s s' : State) : Prop where
  same : s' = { s with curInsn := s'.curInsn }
  latched : s.status ≠ .running → s.status ≠ .faulted → s'.curInsn = s.curInsn

namespace SameButCurInsn

variable {s s' t T : State}

theorem symm (h : SameButCurInsn s s') : SameButCurInsn s' s := by
  obtain ⟨same, latched⟩ := h
  rw [same] at latched ⊢
  exact ⟨rfl, fun hr hf => (latched hr hf).symm⟩

theorem status (h : SameButCurInsn s s') : s'.status = s.status := by rw [h.same]

theorem sameReads (h : SameButCurInsn s s') : SameReads s s' := by
  rw [h.same]
  exact ⟨rfl, rfl, rfl, rfl⟩

theorem change (h : SameButCurInsn s s') (hs : s.status = .running) (c : Change) :
    SameButCurInsn (c.apply s) (c.apply s') := by
  rw [h.same]
  cases c with
  | raise r => exact ⟨rfl, fun _ hf => absurd rfl hf⟩
  | halt => exact ⟨rfl, fun _ _ => rfl⟩
  | _ => exact ⟨rfl, fun hn => absurd hs hn⟩

theorem execInp (h : SameButCurInsn s s') (hs : s.status = .running) {m : Mode} (hx : exec (.inp m) s = .next t) :
    ∃ t', exec (.inp m) s' = .next t' ∧ SameButCurInsn t t' := by
  have hinput : s'.input = s.input := by rw [h.same]
  have hdest := h.sameReads.inputDest m
  obtain ⟨r, hd, rfl⟩ | ⟨d, hd, ⟨hq, rfl⟩ | ⟨hq, rfl⟩ | ⟨v, q, hq, rfl⟩⟩ := exec_inp_cases hx
  · exact ⟨_, exec_inp_raise (hdest.trans hd), h.change hs (.raise r)⟩
  · refine ⟨_, exec_inp_suspend (hdest.trans hd) (hinput.trans hq), ?_⟩
    rw [h.same]
    exact ⟨rfl, fun _ _ => rfl⟩
  · exact ⟨_, exec_inp_wait (hdest.trans hd) (hinput.trans hq), h⟩
  · refine ⟨_, exec_inp_pop (hdest.trans hd) (hinput.trans hq), ?_⟩
    rw [h.same]
    exact ⟨rfl, fun hn => absurd hs hn⟩

theorem exec (h : SameButCurInsn s s') (hs : s.status = .running) {i : Instr} (hx : exec i s = .next t) :
    ∃ t', exec i s' = .next t' ∧ SameButCurInsn t t' := by
  by_cases hi : ∃ m, i = .inp m
  · obtain ⟨m, rfl⟩ := hi
    exact h.execInp hs hx
  · obtain ⟨t', hx', c, rfl, rfl⟩ := exec_alike h.sameReads (not_exists.1 hi) hx
    exact ⟨_, hx', h.change hs c⟩

/-- The relation is kept by every step. -/
theorem step (h : SameButCurInsn s s') (hx : step s = .next t) : ∃ t', step s' = .next t' ∧ SameButCurInsn t t' := by
  have hs := step_running hx
  have hs' := h.status.trans hs
  obtain ⟨r, hf, rfl⟩ | ⟨i, hf, hx⟩ := step_cases hx
  · exact ⟨_, step_of_fetch_error hs' (h.sameReads.fetch.trans hf), h.change hs (.raise r)⟩
  · rw [step_of_fetch hs' (h.sameReads.fetch.trans hf)]
    exact h.exec hs hx

/-- So related states reach the same ends. -/
theorem reaches (h : SameButCurInsn s s') (hT : Reaches s T) : ∃ T', Reaches s' T' ∧ SameEnd T T' := by
  rw [reaches_iff_endsIn] at hT
  induction hT generalizing s' with
  | ended hT => exact ⟨s', ⟨0, rfl, h.status ▸ hT⟩, h.same, h.latched hT⟩
  | step hstep _ ih =>
    obtain ⟨t', hstep', h'⟩ := h.step hstep
    obtain ⟨T', hT', e⟩ := ih h'
    exact ⟨T', (reaches_iff_of_step hstep').2 hT', e⟩

end SameButCurInsn

theorem SameEnd.symm {t t' : State} (h : SameEnd t t') : SameEnd t' t := by
  obtain ⟨same, latched⟩ := h
  rw [same] at latched ⊢
  exact ⟨rfl, fun hf => (latched hf).symm⟩

/-- The uninterrupted run passes through a state `u` that agrees with the resumed one but for CUR_INSN. -/
theorem exists_uninterrupted {s S R : State} {q more : List Word} (hs : s.status = .running) (hq : s.input = .queue q)
    (hS : Reaches s S) (hSs : S.status = .suspended) (hR : hostResume more S = .next R) :
    ∃ u, SameButCurInsn u R ∧ ∀ T, Reaches (s.setQueue (q ++ more)) T ↔ Reaches u T := by
  rw [reaches_iff_endsIn] at hS
  induction hS generalizing q with
  | ended hT => exact absurd hs hT
  | @step s t S hstep rest ih =>
    by_cases ht : t.status = .running
    · obtain ⟨q', hq', hstep'⟩ := step_more more hq ht hstep
      obtain ⟨u, hu, hends⟩ := ih ht hq' hSs hR
      exact ⟨u, hu, fun T => (reaches_iff_of_step hstep').trans (hends T)⟩
    · obtain rfl := rest.eq_of_ended ht
      obtain ⟨m, -, -, -, rfl⟩ := eq_suspend_of_step hstep hSs
      obtain ⟨-, q', hq', rfl⟩ := hostResume_cases hR
      cases hq.symm.trans hq'
      exact ⟨s.setQueue (q ++ more), ⟨by rw [State.setQueue, hs]; rfl, fun hn => absurd hs hn⟩, fun _ => Iff.rfl⟩

/-- Settles O50: the uninterrupted run passes through the resumed state but for CUR_INSN, and from two such states the
same ends are reached, in both directions. -/
theorem resumeEqualsUninterruptedRun : Obligations.ResumeEqualsUninterruptedRun := by
  intro s S R q more hs hq hS hSs hR
  obtain ⟨u, hu, hends⟩ := exists_uninterrupted hs hq hS hSs hR
  constructor
  · intro T hT
    obtain ⟨T', hT', e⟩ := hu.symm.reaches hT
    exact ⟨T', (hends T').2 hT', e⟩
  · intro T' hT'
    obtain ⟨T, hT, e⟩ := hu.reaches ((hends T').1 hT')
    exact ⟨T, hT, e.symm⟩

end Sys2Proof.Machine
end

section
/-! SUPPORT. Proofs about arithmetic (41_arithmetic.md): the overflow rule, what an instruction does once all its
operands resolve, and so what ADD and MUL store and how ADD, MUL and ARB overflow. -/

namespace Sys2Proof.Machine

open Sys2Proof

/-! ## The overflow rule (R111) -/

/-- The low 64 bits of any integer are, as a value of INT64, its residue. -/
theorem toInt_ofInt_eq_wrap64 (v : Int) : (BitVec.ofInt 64 v).toInt = wrap64 v := by
  rw [← ofInt_wrap64, toInt_ofInt_of_in64 (in64_wrap64 v)]

/-- Settles O12: the three branches of the overflow rule. -/
theorem exactResultOrOverflowRule : Obligations.ExactResultOrOverflowRule := by
  intro op v
  constructor
  · exact fun hv p => ⟨_, wr64_of_in64 hv, toInt_ofInt_of_in64 hv⟩
  · exact fun hv => ⟨wr64_fault hv, _, wr64_of_in64_or_wrap (.inr rfl), rfl, toInt_ofInt_eq_wrap64 v⟩

/-! ## Instructions whose operands resolve (R93, R94) -/

/-- Once everything resolves, a three-operand instruction is its computation followed by the store of the result. -/
theorem threeOperand_of_resolves3 {s : State} {m1 m2 m3 : Mode} (h : s.resolves3 m1 m2 m3) (i : Instr)
    (f : Int → Int → Except Raised Word) :
    threeOperand i m1 m2 m3 f s =
      f (s.operand 1 m1) (s.operand 2 m2) >>= fun v => .ok (s.stored (s.destination 3 m3) v 4) := by
  obtain ⟨hdest, hlits, hx, hy, hd⟩ := h
  rw [threeOperand, checkDest_of_isDest i hdest, lit_of_valid (literal_valid hlits le_rfl (by decide)),
    lit_of_valid (literal_valid hlits (by decide) (by decide)), lit_of_valid (literal_valid hlits (by decide) le_rfl)]
  simp only [ok_bind, readop_of_readable hx, readop_of_readable hy, dest_of_valid hd, memWrite_of_valid _ hd]
  rfl

/-- Once everything resolves, a one-operand instruction is its register writes followed by the advance of PC. -/
theorem oneRead_of_resolvesRead {s : State} {m1 : Mode} (h : s.resolvesRead m1)
    (f : Word → State → Except Raised State) :
    oneRead m1 f s = f (s.value m1 (s.literal 1)) s >>= fun t => .ok (t.advance 2) := by
  obtain ⟨hlits, hx⟩ := h
  rw [oneRead, lit_of_valid (literal_valid hlits le_rfl le_rfl)]
  simp only [ok_bind, readop_of_readable hx]
  rfl

section ThreeOperand

variable {s : State} {i : Instr} {m1 m2 m3 : Mode} {f : Int → Int → Except Raised Word}

theorem finish_threeOperand_of_ok {v : Word} (h : s.resolves3 m1 m2 m3)
    (hf : f (s.operand 1 m1) (s.operand 2 m2) = .ok v) :
    finish s (threeOperand i m1 m2 m3 f s) = .next (s.stored (s.destination 3 m3) v 4) := by
  rw [threeOperand_of_resolves3 h, hf, ok_bind, finish_ok]

theorem finish_threeOperand_of_error {k : FaultKind} {n : Int} (h : s.resolves3 m1 m2 m3)
    (hf : f (s.operand 1 m1) (s.operand 2 m2) = .error ⟨k, n⟩) :
    finish s (threeOperand i m1 m2 m3 f s) = .next (s.faultedWith k n) := by
  rw [threeOperand_of_resolves3 h, hf, error_bind, finish_error, raise_eq_faultedWith]

theorem storedAndAdvanced_of_resolves3 (hc : s.cfg.wf = true) (hm : s.mem.wf = true) (h : s.resolves3 m1 m2 m3)
    (v : Word) :
    State.StoredAndAdvanced s (s.stored (s.destination 3 m3) v 4) (s.destination 3 m3) v 4 := by
  obtain ⟨-, hlits, -, -, hd⟩ := h
  exact storedAndAdvanced_stored hc hm hlits hd

end ThreeOperand

/-! ## What ADD and MUL store (R110, R112) -/

/-- Settles O13: the low 64 bits of the exact sum, which are the sum of the two words. -/
theorem addStoresTheSum : Obligations.AddStoresTheSum := by
  intro s m1 m2 m3 hc hm hr hfits
  refine ⟨_, BitVec.ofInt 64 (s.operand 1 m1 + s.operand 2 m2),
    finish_threeOperand_of_ok hr (wr64_of_in64_or_wrap hfits), storedAndAdvanced_of_resolves3 hc hm hr _,
    toInt_ofInt_of_in64, ?_⟩
  rw [BitVec.ofInt_add, State.operand, State.operand, BitVec.ofInt_toInt, BitVec.ofInt_toInt]

/-- Settles O14: the low 64 bits of the exact product, which are the product of the two words. -/
theorem mulStoresTheProduct : Obligations.MulStoresTheProduct := by
  intro s m1 m2 m3 hc hm hr hfits
  refine ⟨_, BitVec.ofInt 64 (s.operand 1 m1 * s.operand 2 m2),
    finish_threeOperand_of_ok hr (wr64_of_in64_or_wrap hfits), storedAndAdvanced_of_resolves3 hc hm hr _,
    toInt_ofInt_of_in64, ?_⟩
  rw [BitVec.ofInt_mul, State.operand, State.operand, BitVec.ofInt_toInt, BitVec.ofInt_toInt]

/-! ## Overflow under the fault policy (R111, R160) -/

/-- Under the fault policy `wr64` answers a result outside INT64 with the instruction's opcode. -/
theorem wr64_overflow {s : State} (hp : s.cfg.overflow = .fault) (op : Nat) {v : Int} (hv : ¬in64 v) :
    wr64 s.cfg.overflow op v = .error ⟨.overflow, op⟩ := by
  rw [hp, wr64_fault hv]

theorem exec_arb_overflow {s : State} {m1 : Mode} (hp : s.cfg.overflow = .fault) (hr : s.resolvesRead m1)
    (hv : ¬in64 (s.rb.toInt + s.operand 1 m1)) : exec (.arb m1) s = .next (s.faultedWith .overflow 9) := by
  have hw : wr64 s.cfg.overflow 9 (s.rb.toInt + (s.value m1 (s.literal 1)).toInt) = .error ⟨.overflow, 9⟩ :=
    wr64_overflow hp 9 hv
  rw [exec, execArb, oneRead_of_resolvesRead hr, hw, error_bind, error_bind, finish_error, raise_eq_faultedWith]

/-- Settles O23: the one computation each instruction makes is a `wr64`, and it raises. -/
theorem overflowFaultsWithTheOpcode : Obligations.OverflowFaultsWithTheOpcode := by
  intro s m1 m2 m3 hp
  refine ⟨fun hr => ⟨fun hv => ?add, fun hv => ?mul⟩, fun hr hv => ?arb⟩
  case add => exact finish_threeOperand_of_error hr (wr64_overflow hp 1 hv)
  case mul => exact finish_threeOperand_of_error hr (wr64_overflow hp 2 hv)
  case arb => exact exec_arb_overflow hp hr hv

end Sys2Proof.Machine
end

section
/-! SUPPORT. Proofs about the comparisons (42_compare.md): the word a comparison writes, and so what LT and EQ store. -/

namespace Sys2Proof.Machine

open Sys2Proof

/-! ## The word a comparison writes (R120, R122) -/

@[simp] theorem truthWord_true : truthWord true = 1 := rfl

@[simp] theorem truthWord_false : truthWord false = 0 := rfl

theorem toInt_truthWord_decide (p : Prop) [Decidable p] : (truthWord (decide p)).toInt = if p then 1 else 0 := by
  by_cases hp : p <;> simp [hp]

/-! ## What LT and EQ store (R121) -/

/-- Settles O15: LT stores the truth of second > first and EQ that of second = first; neither can raise. -/
theorem comparisonsCompareSecondAgainstFirst : Obligations.ComparisonsCompareSecondAgainstFirst := by
  intro s m1 m2 m3 hc hm hr
  constructor
  · refine ⟨_, truthWord (decide (s.operand 2 m2 > s.operand 1 m1)), finish_threeOperand_of_ok hr rfl,
      storedAndAdvanced_of_resolves3 hc hm hr _, toInt_truthWord_decide _, ?_, ?_⟩
    · intro hx hy
      simp [hx, hy]
    · intro hx hy
      simp [hx, hy]
  · exact ⟨_, truthWord (decide (s.operand 2 m2 = s.operand 1 m1)), finish_threeOperand_of_ok hr rfl,
      storedAndAdvanced_of_resolves3 hc hm hr _, toInt_truthWord_decide _⟩

end Sys2Proof.Machine
end

section
/-! SUPPORT. Proofs about the control family (43_control.md): where JT and JF go once both operands resolve, and how HLT
is decoded, ends a run and is executed again. -/

namespace Sys2Proof.Machine

open Sys2Proof

/-! ## JT and JF (R130, R131) -/

/-- Once both operands resolve, a jump completes: its condition picks the target or the next instruction. -/
theorem finish_jumpIf_of_resolves2 {s : State} {m1 m2 : Mode} (h : s.resolves2 m1 m2) (c : Int → Bool) :
    finish s (jumpIf m1 m2 c s) =
      .next (if c (s.operand 1 m1) then s.setPc (s.value m2 (s.literal 2)) else s.advance 3) := by
  obtain ⟨hlits, hx, hy⟩ := h
  rw [jumpIf_eq_ok.2 ⟨hlits, hx, hy, rfl⟩, finish_ok, State.operand]

/-- A jump whose operands resolve writes PC only, with the unchecked target or the exact `PC + 3`. -/
theorem jumpIf_moves_only_pc {s : State} {m1 m2 : Mode} (hc : s.cfg.wf = true) (h : s.resolves2 m1 m2)
    (c : Int → Bool) :
    ∃ t, finish s (jumpIf m1 m2 c s) = .next t ∧ t = { s with pc := t.pc } ∧
      (c (s.operand 1 m1) = true → t.pc = s.value m2 (s.literal 2)) ∧
      (c (s.operand 1 m1) = false → t.pc.toInt = s.pc.toInt + 3) := by
  refine ⟨_, finish_jumpIf_of_resolves2 h c, ?_⟩
  cases c (s.operand 1 m1) with
  | true => exact ⟨rfl, fun _ => rfl, nofun⟩
  | false => exact ⟨rfl, nofun, fun _ => toInt_advance hc h.1⟩

/-- Settles O16: the jump whose condition is `x ≠ 0`. -/
theorem jumpIfTrueMovesOnlyPc : Obligations.JumpIfTrueMovesOnlyPc := by
  intro s m1 m2 hc h
  obtain ⟨t, ht, hframe, htaken, huntaken⟩ := jumpIf_moves_only_pc hc h (fun x => decide (x ≠ 0))
  exact ⟨t, ht, hframe, fun hx => htaken (decide_eq_true hx),
    fun hx => huntaken (decide_eq_false (not_not_intro hx))⟩

/-- Settles O17: the jump whose condition is `x = 0`. -/
theorem jumpIfFalseMovesOnlyPc : Obligations.JumpIfFalseMovesOnlyPc := by
  intro s m1 m2 hc h
  obtain ⟨t, ht, hframe, htaken, huntaken⟩ := jumpIf_moves_only_pc hc h (fun x => decide (x = 0))
  exact ⟨t, ht, hframe, fun hx => htaken (decide_eq_true hx), fun hx => huntaken (decide_eq_false hx)⟩

/-! ## HLT (R133) -/

/-- A word with opcode 99 has one check left, the high part when strict (R69, R70). -/
theorem decode_of_opcode_hlt (strict : Bool) {w : Word} (hw : 0 ≤ w.toInt) (hop : w.toNat % 100 = 99) :
    decode strict w =
      if strict && w.toNat / 100 != 0 then .error ⟨.decodeHighDigit, (w.toNat / 100 : Nat)⟩ else .ok .hlt := by
  rw [decode_nonneg hw]
  exact decodeNat_of_digits strict (i := .hlt) rfl hop rfl

theorem step_hlt {s : State} (hs : s.status = .running) (hf : fetch s = .ok .hlt) : step s = .next s.halt :=
  step_of_fetch hs hf

theorem hostResume_halted {s : State} {q : List Word} (hs : s.status = .halted) (hq : s.input = .queue q)
    (more : List Word) :
    hostResume more s = .next { s with input := .queue (q ++ more), status := .running } := by
  simp only [hostResume, hs, hq]

/-- The block a HLT has halted, resumed, fetches the same HLT and halts again with the appended queue (R133). -/
theorem resume_of_halt_halts_again {s : State} {q : List Word} (hf : fetch s = .ok .hlt) (hq : s.input = .queue q)
    (more : List Word) :
    ∃ u, hostResume more s.halt = .next u ∧ step u = .next { s.halt with input := .queue (q ++ more) } :=
  ⟨_, hostResume_halted (s := s.halt) rfl hq more, step_hlt rfl ((fetch_congr rfl rfl rfl).trans hf)⟩

/-- Settles O22: the fetch faults, or decodes to HLT unless the high part is refused; that step halts at its own PC. -/
theorem haltStopsAtItsOwnAddress : Obligations.HaltStopsAtItsOwnAddress := by
  refine ⟨rfl, rfl, fun s => ⟨rfl, fun hs => ?_⟩⟩
  obtain ⟨fetchFault, decodeFault⟩ := fetchAndDecodeFaultFirst s hs
  refine ⟨fetchFault, fun hv hw hop => ?_⟩
  have hdec := decode_of_opcode_hlt s.cfg.strictHighDigits hw hop
  constructor
  · intro hstrict hhigh
    exact decodeFault hv _ _ (by rw [hdec, hstrict, Bool.true_and, if_pos (bne_iff_ne.2 hhigh)])
  · intro hlax
    have hf : fetch s = .ok .hlt := by
      refine fetch_eq_ok.2 ⟨hv, hdec.trans (if_neg ?_)⟩
      obtain h | h := hlax <;> simp [h]
    exact ⟨s.halt, step_hlt hs hf, rfl, rfl, fun q more hq => resume_of_halt_halts_again hf hq more⟩

end Sys2Proof.Machine
end

section
/-! SUPPORT. Proofs about the input/output family (44_io.md): how IN ends in each input mode once its destination
resolves, what SUPPLY makes of a waiting IN, and what OUT records. -/

namespace Sys2Proof.Machine

open Sys2Proof

/-! ## IN (R140) -/

theorem inputDest_of_resolvesDest {s : State} {m1 : Mode} (h : s.resolvesDest m1) :
    inputDest m1 s = .ok (s.destination 1 m1) := by
  obtain ⟨hdest, hlits, hd⟩ := h
  exact inputDest_eq_ok.2 ⟨hdest, hlits, hd, rfl⟩

/-- The store that completes an IN, the pop of INQ not counted. -/
theorem storedAndAdvanced_of_resolvesDest {s : State} {m1 : Mode} (hc : s.cfg.wf = true) (hm : s.mem.wf = true)
    (h : s.resolvesDest m1) (v : Word) :
    State.StoredAndAdvanced s (s.stored (s.destination 1 m1) v 2) (s.destination 1 m1) v 2 := by
  obtain ⟨-, hlits, hd⟩ := h
  exact storedAndAdvanced_stored hc hm hlits hd

/-- Settles O18: IN pops the queue and then stores, and the pop moves neither MEM, PC nor the destination. -/
theorem inputStoresTheFirstQueuedWord : Obligations.InputStoresTheFirstQueuedWord := by
  intro s m1 v rest hc hm hr hq
  obtain ⟨-, hpc, hread⟩ := storedAndAdvanced_of_resolvesDest (s := s.setQueue rest) hc hm hr v
  exact ⟨_, exec_inp_pop (inputDest_of_resolvesDest hr) hq, rfl, hpc, hread⟩

/-- The IN at PC of a RUNNING block in blocking mode waits for SUPPLY once its destination resolves (R32). -/
theorem waitingInput_of_resolvesDest {s : State} {m1 : Mode} (hs : s.status = .running) (hb : s.input = .blocking)
    (hf : fetch s = .ok (.inp m1)) (h : s.resolvesDest m1) : waitingInput s = some (s.destination 1 m1) :=
  waitingInput_eq_some.2 ⟨hs, hb, m1, hf, inputDest_of_resolvesDest h⟩

/-- Settles O19: the empty queue and blocking mode, the latter with the SUPPLY that completes the waiting IN. -/
theorem inputSuspendsOrWaits : Obligations.InputSuspendsOrWaits := by
  intro s m1 hc hm hr
  have hd := inputDest_of_resolvesDest hr
  refine ⟨fun hq => exec_inp_suspend hd hq, fun hb => ⟨exec_inp_wait hd hb, fun hs hf v => ?_⟩⟩
  exact ⟨_, hostSupply_of_waiting (waitingInput_of_resolvesDest hs hb hf hr) v,
    storedAndAdvanced_of_resolvesDest hc hm hr v⟩

/-! ## OUT (R142) -/

/-- Once its operand resolves, OUT completes: it emits the operand's value and moves PC on. -/
theorem exec_out_of_resolvesRead {s : State} {m1 : Mode} (h : s.resolvesRead m1) :
    exec (.out m1) s = .next ((s.emit (s.value m1 (s.literal 1))).advance 2) := by
  rw [exec, execOut, oneRead_of_resolvesRead h, ok_bind, finish_ok]

/-- Settles O20: an emit, which leaves PC alone, and then the exact `PC + 2`. -/
theorem outputRecordsItsOperand : Obligations.OutputRecordsItsOperand := by
  intro s m1 hc hr
  have hpc := toInt_advance hc hr.1
  exact ⟨_, exec_out_of_resolvesRead hr, rfl, rfl, rfl, rfl, hpc⟩

end Sys2Proof.Machine
end

section
/-! SUPPORT. Proofs about the relative base (45_relbase.md): what ARB makes of RB, and that nothing else writes RB. -/

namespace Sys2Proof.Machine

open Sys2Proof

/-! ## ARB (R150, R111) -/

/-- Once its operand resolves and the sum needs no fault, ARB completes: RB takes the low 64 bits of the exact sum, and PC
moves on. -/
theorem exec_arb_of_resolvesRead {s : State} {m1 : Mode} (h : s.resolvesRead m1)
    (hfits : in64 (s.rb.toInt + s.operand 1 m1) ∨ s.cfg.overflow = .wrap) :
    exec (.arb m1) s = .next ((s.setRb (BitVec.ofInt 64 (s.rb.toInt + s.operand 1 m1))).advance 2) := by
  have hw : wr64 s.cfg.overflow 9 (s.rb.toInt + (s.value m1 (s.literal 1)).toInt) =
      .ok (BitVec.ofInt 64 (s.rb.toInt + s.operand 1 m1)) := wr64_of_in64_or_wrap hfits
  rw [exec, execArb, oneRead_of_resolvesRead h, hw, ok_bind]
  rfl

/-- Settles O21: the low 64 bits of the exact sum, which are the sum of the two words, and then the exact `PC + 2`. -/
theorem adjustRelativeBaseAddsItsOperand : Obligations.AdjustRelativeBaseAddsItsOperand := by
  intro s m1 hc hr hfits
  refine ⟨_, exec_arb_of_resolvesRead hr hfits, rfl, toInt_ofInt_of_in64, ?sum, toInt_advance hc hr.1⟩
  case sum =>
    calc BitVec.ofInt 64 (s.rb.toInt + s.operand 1 m1)
      _ = BitVec.ofInt 64 s.rb.toInt + BitVec.ofInt 64 (s.value m1 (s.literal 1)).toInt := BitVec.ofInt_add ..
      _ = s.rb + s.value m1 (s.literal 1) := by rw [BitVec.ofInt_toInt, BitVec.ofInt_toInt]

/-! ## What a step does to RB and the parameters (R151, R23) -/

theorem Effect.cfg {i : Instr} {s t : State} (h : Effect i s t) : t.cfg = s.cfg := by cases h <;> rfl

theorem Effect.rb {i : Instr} {s t : State} (h : Effect i s t) : t.rb = s.rb ∨ ∃ m, i = .arb m := by
  cases h with
  | rebased m hi => exact .inr ⟨m, hi⟩
  | _ => exact .inl rfl

/-- Settles O37: a fetch fault writes neither, no effect of an instruction writes the parameters, and only ARB's writes
RB. -/
theorem relativeBaseIsWrittenOnlyByArb : Obligations.RelativeBaseIsWrittenOnlyByArb := by
  intro s t h
  obtain ⟨r, -, -, rfl⟩ | ⟨i, hf, he⟩ := step_effect h
  · exact ⟨rfl, absurd rfl⟩
  · refine ⟨he.cfg, fun hne => ?_⟩
    obtain hsame | ⟨m, rfl⟩ := he.rb
    · exact absurd hsame hne
    · exact ⟨m, hf⟩

end Sys2Proof.Machine
end

section
/-! SUPPORT. Proofs about exceptions (60_exceptions.md): which invalid address an instruction reports, and that a FAULTED
block waits for START. -/

namespace Sys2Proof.Machine

open Sys2Proof

/-! ## The first fault of a sequence is the one taken (R160, R163) -/

theorem raises_at_once {α β : Type} {x : Except Raised α} {f : α → Except Raised β} {r : Raised} (h : x = .error r) :
    (x >>= f) = .error r := bind_eq_error.2 (.inl h)

theorem raises_after {α β : Type} {x : Except Raised α} {f : α → Except Raised β} {a : α} {r : Raised} (hx : x = .ok a)
    (h : f a = .error r) : (x >>= f) = .error r := bind_eq_error.2 (.inr ⟨a, hx, h⟩)

theorem finish_of_raised {s : State} {x : Except Raised State} {k : FaultKind} {n : Int} (h : x = .error ⟨k, n⟩) :
    finish s x = .next (s.faultedWith k n) := by
  rw [h, finish_error, raise_eq_faultedWith]

theorem lit_of_literalsIn {s : State} {n i : Nat} (h : s.literalsIn n) (h1 : 1 ≤ i) (hn : i ≤ n) :
    lit i s = .ok (s.literal i) := lit_of_valid (literal_valid h h1 hn)

/-! ## ADD, MUL, LT and EQ -/

/-- The four storing instructions are one shape and differ in the computation only (R94). -/
theorem exec_eq_threeOperand {i : Instr} {m1 m2 m3 : Mode}
    (hi : i = .add m1 m2 m3 ∨ i = .mul m1 m2 m3 ∨ i = .lt m1 m2 m3 ∨ i = .eq m1 m2 m3) (s : State) :
    ∃ f, exec i s = finish s (threeOperand i m1 m2 m3 f s) := by
  obtain rfl | rfl | rfl | rfl := hi <;> exact ⟨_, rfl⟩

/-- Settles O24: the shape checks the literals, the operands and the destination in this order, and each clause names the
first that fails; the computation, which alone can overflow, comes after them. -/
theorem threeOperandFaultPriority : Obligations.ThreeOperandFaultPriority := by
  intro s m1 m2 m3 i hdest hi
  obtain ⟨f, hexec⟩ := exec_eq_threeOperand hi s
  rw [hexec]
  refine ⟨fun h1 => ?lit1, fun h1 h2 => ?lit2, fun h1 h2 h3 => ?lit3, fun hl hx => ?operand1, fun hl hx hy => ?operand2,
    fun hl hx hy hd => ?destination⟩ <;>
    refine finish_of_raised <| raises_after (checkDest_of_isDest i hdest) ?_
  case lit1 => exact raises_at_once (lit_of_not_valid h1)
  case lit2 => exact raises_after (lit_of_valid h1) <| raises_at_once (lit_of_not_valid h2)
  case lit3 =>
    exact raises_after (lit_of_valid h1) <| raises_after (lit_of_valid h2) <| raises_at_once (lit_of_not_valid h3)
  all_goals
    refine raises_after (lit_of_literalsIn hl le_rfl (by decide)) <|
      raises_after (lit_of_literalsIn hl (by decide) (by decide)) <|
      raises_after (lit_of_literalsIn hl (by decide) le_rfl) ?_
  case operand1 => exact raises_at_once (readop_of_not_readable hx)
  case operand2 => exact raises_after (readop_of_readable hx) <| raises_at_once (readop_of_not_readable hy)
  case destination =>
    exact raises_after (readop_of_readable hx) <| raises_after (readop_of_readable hy) <|
      raises_at_once (dest_of_not_valid hd)

/-! ## JT and JF -/

/-- JT and JF are one shape and differ in the condition only (R94). -/
theorem exec_eq_jumpIf {i : Instr} {m1 m2 : Mode} (hi : i = .jt m1 m2 ∨ i = .jf m1 m2) (s : State) :
    ∃ c, exec i s = finish s (jumpIf m1 m2 c s) := by
  obtain rfl | rfl := hi <;> exact ⟨_, rfl⟩

/-- Settles O25: the shape resolves both operands before it looks at its condition. -/
theorem jumpFaultPriority : Obligations.JumpFaultPriority := by
  intro s m1 m2 i hi
  obtain ⟨c, hexec⟩ := exec_eq_jumpIf hi s
  rw [hexec]
  refine ⟨fun h1 => ?lit1, fun h1 h2 => ?lit2, fun hl hx => ?operand1, fun hl hx hy => ?operand2⟩ <;>
    apply finish_of_raised
  case lit1 => exact raises_at_once (lit_of_not_valid h1)
  case lit2 => exact raises_after (lit_of_valid h1) <| raises_at_once (lit_of_not_valid h2)
  all_goals
    refine raises_after (lit_of_literalsIn hl le_rfl (by decide)) <|
      raises_after (lit_of_literalsIn hl (by decide) le_rfl) ?_
  case operand1 => exact raises_at_once (readop_of_not_readable hx)
  case operand2 => exact raises_after (readop_of_readable hx) <| raises_at_once (readop_of_not_readable hy)

/-! ## OUT, ARB and IN -/

/-- OUT and ARB are one shape and differ in the register writes only (R94). -/
theorem exec_eq_oneRead {i : Instr} {m1 : Mode} (hi : i = .out m1 ∨ i = .arb m1) (s : State) :
    ∃ f, exec i s = finish s (oneRead m1 f s) := by
  obtain rfl | rfl := hi <;> exact ⟨_, rfl⟩

/-- Settles O26: OUT and ARB check the literal and the operand; an IN raises the fault of its destination, which is
resolved without a look at the input. -/
theorem oneOperandFaultPriority : Obligations.OneOperandFaultPriority := by
  intro s m1
  refine ⟨fun i hi => ?read, fun hdest => ?input⟩
  case read =>
    obtain ⟨f, hexec⟩ := exec_eq_oneRead hi s
    rw [hexec]
    constructor
    · exact fun h1 => finish_of_raised <| raises_at_once (lit_of_not_valid h1)
    · exact fun h1 hx => finish_of_raised <| raises_after (lit_of_valid h1) <|
        raises_at_once (readop_of_not_readable hx)
  case input =>
    have hcheck := checkDest_of_isDest (.inp m1) hdest
    constructor
    · exact fun h1 => exec_inp_raise <| raises_after hcheck <| raises_at_once (lit_of_not_valid h1)
    · exact fun h1 hd => exec_inp_raise <| raises_after hcheck <| raises_after (lit_of_valid h1) (dest_of_not_valid hd)

/-! ## Leaving FAULTED (R165) -/

/-- START of a stopped block leaves the start state of an image that fits (R35, R180, R181). -/
theorem hostStart_of_not_running {s : State} {image : List Word} (hs : s.status ≠ .running)
    (hfits : image.length ≤ s.cfg.capacity) (inputs : Option (List Word)) (off : Word) :
    hostStart image inputs off s = .next (startState s.cfg image inputs off) := by
  rw [hostStart, if_neg hs, firstStart, if_pos hfits]

/-- Settles O29: a step and SUPPLY need RUNNING, RESUME needs SUSPENDED or HALTED, and START is allowed. -/
theorem faultedIsLeftOnlyByStart : Obligations.FaultedIsLeftOnlyByStart := by
  intro s hs
  have hrun : s.status ≠ .running := by simp [hs]
  refine ⟨fun t h => ?step, fun more t h => ?resume, fun v t h => ?supply, fun image inputs off hfits => ?start⟩
  case step => exact hrun (step_running h)
  case resume =>
    obtain ⟨hstopped, -⟩ := hostResume_cases h
    simp [hs] at hstopped
  case supply =>
    obtain ⟨d, hw, -⟩ := hostSupply_eq_next.1 h
    exact hrun (waitingInput_eq_some.1 hw).1
  case start => exact ⟨_, hostStart_of_not_running hrun hfits inputs off, rfl, rfl, rfl⟩

end Sys2Proof.Machine
end

section
/-! SUPPORT. Proofs about reset and hazards (70_reset_and_hazards.md): what START leaves and when it is refused, and what
RESUME changes and when it is refused. -/

namespace Sys2Proof.Machine

open Sys2Proof

/-! ## START (R35, R180, R181) -/

theorem firstStart_of_fits {cfg : Config} {image : List Word} (h : image.length ≤ cfg.capacity)
    (inputs : Option (List Word)) (off : Word) :
    firstStart cfg image inputs off = .next (startState cfg image inputs off) := if_pos h

theorem firstStart_of_too_long {cfg : Config} {image : List Word} (h : cfg.capacity < image.length)
    (inputs : Option (List Word)) (off : Word) : firstStart cfg image inputs off = .refused .imageTooLong :=
  if_neg (Nat.not_le.2 h)

theorem startState_inq (cfg : Config) (image : List Word) (inputs : Option (List Word)) (off : Word) :
    (startState cfg image inputs off).inq = inputs := by
  cases inputs with
  | none => rfl
  | some q => rfl

/-- MEM after START: the image at address 0 upward, 0 beyond it (R180, R49). -/
theorem startState_read (cfg : Config) (image : List Word) (inputs : Option (List Word)) (off : Word) (a : Nat) :
    Memory.read (startState cfg image inputs off).mem a = image.getD a 0 := by
  have h := Memory.read_loadFrom 0 image a
  rwa [Nat.zero_add] at h

/-- Settles O46: the image fits or not, and START of a block that has a state is the first START unless it is RUNNING. -/
theorem startLoadsTheImageAndTheRegisters : Obligations.StartLoadsTheImageAndTheRegisters := by
  intro cfg image inputs off
  refine ⟨fun hlong => ?tooLong, fun hfits => ?fits, fun s hcfg => ⟨fun hs => ?running, fun hs => ?stopped⟩⟩
  case tooLong => exact firstStart_of_too_long hlong inputs off
  case fits =>
    exact ⟨_, firstStart_of_fits hfits inputs off, startState_read cfg image inputs off, Memory.wfFrom_loadFrom 0 image,
      rfl, rfl, rfl, startState_inq cfg image inputs off, rfl, rfl, rfl, rfl, rfl, rfl⟩
  case running => exact if_pos hs
  case stopped => rw [hostStart, if_neg hs, hcfg]

/-! ## RESUME (R183, R188, R36) -/

theorem hostResume_stopped {s : State} {q : List Word} (hs : s.status = .suspended ∨ s.status = .halted)
    (hq : s.input = .queue q) (more : List Word) :
    hostResume more s = .next { s with input := .queue (q ++ more), status := .running } := by
  obtain hs | hs := hs
  · simp only [hostResume, hs, hq]
  · exact hostResume_halted hs hq more

theorem hostResume_refused {s : State} (h : s.status = .running ∨ s.status = .faulted ∨ s.input = .blocking)
    (more : List Word) : hostResume more s = .refused .resumeNotAllowed := by
  obtain hs | hs | hb := h
  · simp only [hostResume, hs]
  · simp only [hostResume, hs]
  · cases hs : s.status <;> simp only [hostResume, hs, hb]

/-- An IN that had suspended finds the queue still empty, and latches into CUR_INSN what stands there already (R188). -/
theorem step_resumed_suspended {s : State} {m : Mode} (hs : s.status = .suspended) (hq : s.input = .queue [])
    (hf : fetch s = .ok (.inp m)) (hd : s.resolvesDest m) (hc : s.curInsn = some (.inp m)) :
    step { s with input := .queue [], status := .running } = .next s := by
  have hsame : SameReads s { s with input := .queue [], status := .running } := ⟨rfl, rfl, rfl, rfl⟩
  have hdest := (hsame.inputDest m).trans (inputDest_of_resolvesDest hd)
  have hback : State.suspend (.inp m) { s with input := .queue [], status := .running } = s := by
    rw [State.suspend, ← hs, ← hq, ← hc]
  rw [step_of_fetch rfl (hsame.fetch.trans hf), exec_inp_suspend hdest rfl, hback]

/-- Settles O47: when RESUME applies and when it is refused; the invariant puts the IN that suspended at PC. -/
theorem resumeAppendsInputAndKeepsTheRest : Obligations.ResumeAppendsInputAndKeepsTheRest := by
  intro s more
  refine ⟨fun hs q hq => hostResume_stopped hs hq more, fun h => hostResume_refused h more, fun hinv hs => ?_⟩
  obtain ⟨hq, m, hf, hd, hc⟩ := hinv.suspendedAtIn hs
  exact ⟨_, hostResume_stopped (.inl hs) hq [], step_resumed_suspended hs hq hf hd hc⟩

end Sys2Proof.Machine
end

section
/-! SUPPORT. Proofs about the model's own choices (logs 6, 7, 16, 22): the fault of a term with an Immediate destination,
the reset state, and the placing of a table word where the next step fetches. -/

namespace Sys2Proof.Machine

open Sys2Proof

/-! ## A term with an Immediate destination (R68, R78; log 16) -/

theorem toNat_encode (i : Instr) : (encode i).toNat = encodeNat i := by
  have hlt := encodeNat_lt i
  rw [encode, BitVec.toNat_ofNat, Nat.mod_eq_of_lt (by omega)]

theorem checkDest_immediate (i : Instr) : checkDest .immediate i = .error ⟨.decodeImmDest, (encode i).toNat⟩ := by
  rw [toNat_encode]
  rfl

/-- Settles O28: both shapes with a write destination check its mode before anything else. -/
theorem immediateDestinationTermFaults : Obligations.ImmediateDestinationTermFaults := by
  intro s m1 m2 i hi
  obtain hstore | rfl : (i = .add m1 m2 .immediate ∨ i = .mul m1 m2 .immediate ∨ i = .lt m1 m2 .immediate ∨
      i = .eq m1 m2 .immediate) ∨ i = .inp .immediate := by simpa only [or_assoc] using hi
  · obtain ⟨f, hexec⟩ := exec_eq_threeOperand hstore s
    rw [hexec]
    exact finish_of_raised <| raises_at_once (checkDest_immediate i)
  · exact exec_inp_raise <| raises_at_once (checkDest_immediate (.inp .immediate))

/-! ## The reset state (R38, R181; log 6) -/

theorem reset_eq_startState : State.reset = startState Config.default [] (some []) 0 := rfl

/-- Settles O44: reset is START of an empty image on the default machine. -/
theorem resetMeetsTheInvariant : Obligations.ResetMeetsTheInvariant := by
  rw [Obligations.ResetMeetsTheInvariant, reset_eq_startState]
  exact startState_inv (by decide) (Nat.zero_le _) (some []) 0

/-! ## Placing a table word (logs 7, 22) -/

/-- Four words written in a row from `a` read back in their order. -/
theorem Memory.read_write_row {m : Memory} (hm : m.wf = true) (a : Nat) (v : Nat → Word) {k : Nat} (hk : k ≤ 3) :
    Memory.read (Memory.write (Memory.write (Memory.write (Memory.write m a (v 0)) (a + 1) (v 1)) (a + 2) (v 2))
      (a + 3) (v 3)) (a + k) = v k := by
  have h1 := Memory.wf_write hm a (v 0)
  have h2 := Memory.wf_write h1 (a + 1) (v 1)
  have h3 := Memory.wf_write h2 (a + 2) (v 2)
  rw [Memory.read_write h3, Memory.read_write h2, Memory.read_write h1, Memory.read_write hm]
  interval_cases k <;> simp

theorem withFetchWord_read {s : State} (hm : s.mem.wf = true) (h0 : 0 ≤ s.pc.toInt) (nbits w : Nat) {k : Nat}
    (hk : k ≤ 3) : Memory.read (s.withFetchWord nbits w).mem (s.pc.toInt.toNat + k) = tableWord nbits w k := by
  have hpc : s.pc.toInt.toNat = s.pc.toNat := by have := (toNat_of_nonneg h0).1; omega
  rw [hpc]
  exact Memory.read_write_row hm s.pc.toNat (tableWord nbits w) hk

/-- The table's decoder reads word 0 of a table word, with STRICT_HIGH_DIGITS at its default (R9, R84). -/
theorem decodeTableWord_eq_some {nbits w : Nat} {i : Instr} :
    decodeTableWord nbits w = some i ↔ decode false (tableWord nbits w 0) = .ok i := by
  rw [decodeTableWord, tableWord, Nat.mul_zero, Nat.pow_zero, Nat.div_one]
  cases decode false (BitVec.ofNat 64 (w % 2 ^ nbits)) <;> simp

theorem fetch_withFetchWord {s : State} {nbits w : Nat} {i : Instr} (hstrict : s.cfg.strictHighDigits = false)
    (hm : s.mem.wf = true) (hv : s.valid s.pc.toInt) (hd : decodeTableWord nbits w = some i) :
    fetch (s.withFetchWord nbits w) = .ok i := by
  have hword : (s.withFetchWord nbits w).word s.pc.toInt = tableWord nbits w 0 :=
    withFetchWord_read hm hv.1 nbits w (Nat.zero_le 3)
  have hdec : decode s.cfg.strictHighDigits ((s.withFetchWord nbits w).word s.pc.toInt) = .ok i := by
    rw [hstrict, hword]
    exact decodeTableWord_eq_some.1 hd
  exact fetch_eq_ok.2 ⟨hv, hdec⟩

/-- Settles O52: the placed words read back, so the fetch decodes word 0; nothing but MEM and STATUS is written. -/
theorem placedTableWordRunsNext : Obligations.PlacedTableWordRunsNext :=
  fun _ nbits w _ hstrict hm hv hd =>
    ⟨step_of_fetch rfl (fetch_withFetchWord hstrict hm hv hd), fun _ hk => withFetchWord_read hm hv.1 nbits w hk, rfl⟩

end Sys2Proof.Machine
end
